-- ==== Sys2Proof/Word.lean ====
section
/-! DEFINITION. The word types of GHC: the 64-bit register and command word, the 8-bit character code, the 5-bit
character value and the 70-bit bus record (00_scope.md R7, 30_encoding.md R80, R81). -/

namespace Sys2Proof

/-- A register, a command word, or the encoding of a binary64 value (00_scope.md R7, R8). -/
abbrev Word := BitVec 64

/-- A character code (00_scope.md R7: "Character code width: 8 bits"). -/
abbrev Byte := BitVec 8

/-- The 5-bit value of one character (00_scope.md R7: "Bits per character: 5"). -/
abbrev Quintet := BitVec 5

/-- A word index 0 to 31 of the register window (20_memory.md R60). -/
abbrev Index := BitVec 5

/-- A BUS transaction record (30_encoding.md R81). -/
abbrev Record := BitVec 70

end Sys2Proof
end

