-- ==== Sys2Proof/Syntax.lean ====
section
/-! DEFINITION. The instructions of GHC: the six commands and the two bus transactions of spec/opcode_table.json. -/

namespace Sys2Proof

/-- One constructor per row of spec/opcode_table.json. A command stands for the CMD write that carries it
(20_memory.md R73: "A command takes effect at the CMD write that carries it"). -/
inductive Instr where
  /-- NOP (44_control.md R184). -/
  | nop
  /-- ENCODE (42_encode.md R140); its operands are LAT, LON and PREC. -/
  | encode
  /-- DECODE (43_decode.md R160); its operands are HASH0, HASH1 and HLEN. -/
  | decode
  /-- REFINE (40_refine.md R119); its operands are RVAL, RLOW and RHIGH. -/
  | refine
  /-- ENCCHAR (41_base32.md R133). The argument is the ARG field: ARG[4:0] is v, ARG[7:5] must be 0 (30_encoding.md R86). -/
  | encchar (arg : Byte)
  /-- DECCHAR (41_base32.md R134). The argument is ARG, the character code c (30_encoding.md R86). -/
  | decchar (c : Byte)
  /-- RD, the bus transaction BusRead(idx) (20_memory.md R60). -/
  | rd (idx : Index)
  /-- WR, the bus transaction BusWrite(idx, data) (20_memory.md R61). -/
  | wr (idx : Index) (data : Word)
deriving DecidableEq, Repr

/-- True of the six commands, the rows of the CMD format (30_encoding.md R80). -/
def Instr.isCommand : Instr → Bool
  | .nop => true
  | .encode => true
  | .decode => true
  | .refine => true
  | .encchar _ => true
  | .decchar _ => true
  | .rd _ => false
  | .wr _ _ => false

end Sys2Proof
end

