-- ==== Sys2Proof/WellFormed.lean ====
section
/-! DEFINITION. Which terms of Instr stand for an instruction. -/

namespace Sys2Proof

/-- 30_encoding.md R86: of ENCCHAR's argument, "ARG[7:5] must be 0". Every other operand field admits every value
(DECCHAR "Any value 0x00 to 0xFF is a legal DECCHAR word"; IDX is 0 to 31; DATA is any word). -/
def Instr.wellFormed : Instr → Bool
  | .nop => true
  | .encode => true
  | .decode => true
  | .refine => true
  | .encchar arg => arg.extractLsb' 5 3 == 0#3
  | .decchar _ => true
  | .rd _ => true
  | .wr _ _ => true

end Sys2Proof
end

