-- ==== Sys2Proof/Decode.lean ====
section
/-! DEFINITION. Decoding of command words and bus records, the encoder, and the host's view of both (30_encoding.md part 1). -/

namespace Sys2Proof

/-! ## The fields of a command word (30_encoding.md R84) -/

/-- OP, bits 3:0. -/
def cmdOp (w : Word) : BitVec 4 := w.extractLsb' 0 4

/-- RSV0, bits 7:4. -/
def cmdRsv0 (w : Word) : BitVec 4 := w.extractLsb' 4 4

/-- ARG, bits 15:8. -/
def cmdArg (w : Word) : Byte := w.extractLsb' 8 8

/-- RSV1, bits 63:16. -/
def cmdRsv1 (w : Word) : BitVec 48 := w.extractLsb' 16 48

/-- `valid(w)`, the formula of 30_encoding.md R87. -/
def validWord (w : Word) : Bool :=
  cmdRsv1 w == 0#48 && cmdRsv0 w == 0#4 &&
    (((cmdOp w == 0#4 || cmdOp w == 1#4 || cmdOp w == 2#4 || cmdOp w == 3#4) && cmdArg w == 0#8)
      || (cmdOp w == 4#4 && w.extractLsb' 13 3 == 0#3)
      || cmdOp w == 5#4)

/-- Why a word is illegal (30_encoding.md R88: "a reserved OP (0x6 to 0xF), a nonzero RSV0 or RSV1, or a nonzero ARG bit that
its command does not use"). Every one of them is handled alike, as InvalidCommand (44_control.md R185). -/
inductive IllegalWord where
  | nonzeroRsv1
  | nonzeroRsv0
  | unusedArgBit
  | reservedOp
deriving DecidableEq, Repr

/-- The decoder of command words, total over all 2^64 words (30_encoding.md R85, R86, R88). -/
def decodeCmd (w : Word) : Except IllegalWord Instr :=
  if cmdRsv1 w ≠ 0#48 then .error .nonzeroRsv1
  else if cmdRsv0 w ≠ 0#4 then .error .nonzeroRsv0
  else match (cmdOp w).toNat with
    | 0 => if cmdArg w = 0#8 then .ok .nop else .error .unusedArgBit
    | 1 => if cmdArg w = 0#8 then .ok .encode else .error .unusedArgBit
    | 2 => if cmdArg w = 0#8 then .ok .decode else .error .unusedArgBit
    | 3 => if cmdArg w = 0#8 then .ok .refine else .error .unusedArgBit
    | 4 => if (cmdArg w).extractLsb' 5 3 = 0#3 then .ok (.encchar (cmdArg w)) else .error .unusedArgBit
    | 5 => .ok (.decchar (cmdArg w))
    | _ => .error .reservedOp

/-! ## The fields of a bus record (30_encoding.md R81) -/

/-- D, bit 69: false for a BusRead, true for a BusWrite. -/
def recD (r : Record) : Bool := r.getLsbD 69

/-- IDX, bits 68:64. -/
def recIdx (r : Record) : Index := r.extractLsb' 64 5

/-- DATA, bits 63:0. -/
def recData (r : Record) : Word := r.extractLsb' 0 64

/-- The decoder of bus records, total over all 2^70 records: D alone selects the row, as the masks of the opcode table
say. DEDUCED (log entry 6): the DATA bits of a read record, listed as 0 in 30_encoding.md R81, carry nothing and are not looked at. -/
def decodeBus (r : Record) : Instr :=
  if recD r then .wr (recIdx r) (recData r) else .rd (recIdx r)

/-! ## Both formats (30_encoding.md R80) -/

/-- The bits of an instruction, in one of the two formats. -/
inductive Encoding where
  | cmd (w : Word)
  | bus (r : Record)
deriving DecidableEq, Repr

/-- The decoder: an instruction, or the reason a command word is illegal. -/
def decode : Encoding → Except IllegalWord Instr
  | .cmd w => decodeCmd w
  | .bus r => .ok (decodeBus r)

/-! ## The encoder -/

/-- A command word from OP and ARG, the other bits 0 (30_encoding.md R84, R101: `op | (arg << 8)`). -/
def cmdWord (op : BitVec 4) (arg : Byte) : Word := op.setWidth 64 ||| (arg.setWidth 64 <<< 8)

/-- A bus record from D, IDX and DATA (30_encoding.md R81). -/
def busRecord (d : Bool) (idx : Index) (data : Word) : Record :=
  ((BitVec.ofBool d).setWidth 70 <<< 69) ||| (idx.setWidth 70 <<< 64) ||| data.setWidth 70

/-- The index of the CMD register (10_state.md R21). -/
def cmdIndex : Index := 1#5

/-- The encoding of an instruction (30_encoding.md R81, R85, R86, R101). -/
def encode : Instr → Encoding
  | .nop => .cmd (cmdWord 0#4 0#8)
  | .encode => .cmd (cmdWord 1#4 0#8)
  | .decode => .cmd (cmdWord 2#4 0#8)
  | .refine => .cmd (cmdWord 3#4 0#8)
  | .encchar arg => .cmd (cmdWord 4#4 arg)
  | .decchar c => .cmd (cmdWord 5#4 c)
  | .rd idx => .bus (busRecord false idx 0#64)
  | .wr idx data => .bus (busRecord true idx data)

/-- The transaction that delivers an encoding to the block: a command word travels in a BusWrite to CMD (30_encoding.md R81:
"A record of a BusWrite to CMD carries a CMD-format word in DATA"). -/
def Encoding.toRecord : Encoding → Record
  | .cmd w => busRecord true cmdIndex w
  | .bus r => r

/-! ## The opcode table's numbering of bits -/

/-- The bits of an instruction of the opcode table as an encoding: a row of at most 64 bits is a command word, a row of 65 to
72 bits (70 in whole bytes) is a bus record. DESIGN CHOICE (log entry 17): the width selects the format, since the two overlap. -/
def tableEncoding (nbits w : Nat) : Encoding :=
  if nbits ≤ 64 then .cmd (BitVec.ofNat 64 w) else .bus (BitVec.ofNat 70 w)

/-- The instruction the decoder reads from the table's bits; none where they do not fit the format or the word is illegal. -/
def decodeTableWord (nbits w : Nat) : Option Instr :=
  if nbits ≤ 64 then (if w < 2 ^ 64 then (decodeCmd (BitVec.ofNat 64 w)).toOption else none)
  else if nbits ≤ 72 then (if w < 2 ^ 70 then some (decodeBus (BitVec.ofNat 70 w)) else none)
  else none

end Sys2Proof
end

