-- ==== Sys2Proof/Config.lean ====
section
/-! DEFINITION. What an implementation of GHC fixes: the parameters MAXP and BASE (00_scope.md R5, R6), the fixed numbers of
00_scope.md R7, and the constant words the rules name. GHC leaves no result open, so there is no free value here. -/

namespace Sys2Proof.Config

/-- The parameters of one build and its platform. They never change (10_state.md R20). -/
structure Params where
  /-- MAXP, the largest precision the build supports (00_scope.md R5). -/
  maxp : Nat
  /-- BASE, the host address of word 0 of the window (00_scope.md R6); only the platform's address mapping reads it. -/
  base : Nat
deriving DecidableEq, Repr

/-- 00_scope.md R5: "Its default is 12." -/
def defaultMaxp : Nat := 12

/-- 00_scope.md R5: "1 <= MAXP <= 16". -/
def minMaxp : Nat := 1

/-- 00_scope.md R5: two 64-bit registers hold 16 character bytes. -/
def limitMaxp : Nat := 16

/-- The parameters the spec allows (00_scope.md R5). -/
def Params.legal (p : Params) : Bool := decide (minMaxp ≤ p.maxp) && decide (p.maxp ≤ limitMaxp)

/-- 00_scope.md R7: "Bits per character: 5". -/
def bitsPerChar : Nat := 5

/-- 20_memory.md R60: "0 <= idx <= 31". -/
def windowWords : Nat := 32

/-- 20_memory.md R62: every transaction moves 64 bits, that is 8 bytes. -/
def wordBytes : Nat := 8

/-- CNAN (00_scope.md R10). -/
def cnan : Word := 0x7FF8000000000000#64

/-- The binary64 words of the initial intervals (00_scope.md R7; 95_test_vectors.md section 1): -180.0. -/
def lonMin : Word := 0xC066800000000000#64

/-- 180.0 -/
def lonMax : Word := 0x4066800000000000#64

/-- -90.0 -/
def latMin : Word := 0xC056800000000000#64

/-- 90.0 -/
def latMax : Word := 0x4056800000000000#64

end Sys2Proof.Config
end

