-- ==== Sys2Proof/Machine/State.lean ====
section
/-! DEFINITION. Everything the spec gives the machine, as plain data: the host-visible registers (10_state.md part 1), the
engine's internal state (10_state.md part 2), the parameters, and the outside world's events still to come. -/

namespace Sys2Proof.Machine

/-! ## Names -/

/-- The registers of the window by name (10_state.md part 1, 30_encoding.md R83). All the words 19 to 31 are `reserved`. -/
inductive Reg where
  | config | cmd | status | result
  | lat | lon | prec | hlen | hash0 | hash1
  | latmin | latmax | lonmin | lonmax | clat | clon
  | rval | rlow | rhigh
  | reserved
deriving DecidableEq, Repr

/-- Access classes (10_state.md part 1): RW, RO, WO, RSV. -/
inductive Access where
  | rw | ro | wo | rsv
deriving DecidableEq, Repr

/-- The values STATUS.ERR can hold (60_exceptions.md R190). Codes 6 to 15 are never written, so they have no constructor. -/
inductive ErrorCode where
  /-- 0: the command finished without error -/
  | none
  /-- 1: OutOfRange, raised by ENCODE (42_encode.md R141) -/
  | outOfRange
  /-- 2: InvalidPrecision, raised by ENCODE (42_encode.md R142) and DECODE (43_decode.md R161) -/
  | invalidPrecision
  /-- 3: InvalidCharacter, raised by DECODE (43_decode.md R162) and DECCHAR (41_base32.md R134) -/
  | invalidCharacter
  /-- 4: EmptyInput, raised by DECODE (43_decode.md R161) -/
  | emptyInput
  /-- 5: InvalidCommand, raised by a CMD write of an illegal word (44_control.md R185) -/
  | invalidCommand
deriving DecidableEq, Repr

/-- E.OP (10_state.md R40). -/
inductive EngineOp where
  | enc | dec
deriving DecidableEq, Repr

/-! ## The block's state -/

/-- The fields of STATUS (10_state.md R22). Its other bits are hard-wired 0 and stand in no field. -/
structure Status where
  busy : Bool
  done : Bool
  err : ErrorCode
  ovr : Bool
deriving DecidableEq, Repr

/-- The stored host-visible registers (10_state.md R27 to R34). CONFIG is a parameter, CMD stores nothing, STATUS is `Status`. -/
structure Regs where
  result : Word
  lat : Word
  lon : Word
  prec : Word
  hlen : Word
  hash0 : Word
  hash1 : Word
  latmin : Word
  latmax : Word
  lonmin : Word
  lonmax : Word
  clat : Word
  clon : Word
  rval : Word
  rlow : Word
  rhigh : Word
deriving DecidableEq, Repr

/-- The two Intervals as words of binary64 values: E.LONLO, E.LONHI, E.LATLO, E.LATHI (10_state.md R43). -/
structure Box where
  lonlo : Word
  lonhi : Word
  latlo : Word
  lathi : Word
deriving DecidableEq, Repr

/-- The engine's internal state (10_state.md R40 to R47). -/
structure Engine where
  /-- E.OP (R40) -/
  op : EngineOp
  /-- E.N, the character count (R41) -/
  n : Nat
  /-- E.I, the bit steps already done (R42) -/
  i : Nat
  /-- E.LONLO, E.LONHI, E.LATLO, E.LATHI (R43) -/
  box : Box
  /-- E.VLAT (R44) -/
  vlat : Word
  /-- E.VLON (R44) -/
  vlon : Word
  /-- E.GRP (R45) -/
  grp : Quintet
  /-- E.BUF (R46) -/
  buf : Vector Byte 16
  /-- E.VALS (R47) -/
  vals : List Quintet
deriving DecidableEq, Repr

/-! ## The outside world -/

/-- What can happen to one GHC instance, one event at a time in a single total order (20_memory.md R68). -/
inductive Event where
  /-- A host transaction, as its record (30_encoding.md R81). -/
  | bus (r : Record)
  /-- A point at which the engine takes its step, if it has one (20_memory.md R69, 44_control.md R187). -/
  | engine
  /-- The reset input is asserted and released; `arriving` are the transactions that arrive meanwhile, which have no effect
  (70_reset_and_hazards.md R210). -/
  | reset (arriving : List Record)
  /-- A byte-addressed host access through the platform's mapping (20_memory.md R62): its address, its width in bytes, and
  the value written, if it is a write. -/
  | access (addr bytes : Nat) (wdata : Option Word)
  /-- The host runs the WAIT loop (30_encoding.md R97). `gaps` says how many engine steps come between its successive reads of
  STATUS; where the list has ended it is one (log entry 8). -/
  | wait (gaps : List Nat)
deriving DecidableEq, Repr

/-- The machine. -/
structure State where
  /-- MAXP and BASE (00_scope.md R5, R6); no step changes them. -/
  params : Config.Params
  /-- STATUS (10_state.md R22) -/
  status : Status
  /-- the other stored registers (10_state.md R27 to R34) -/
  regs : Regs
  /-- the engine's internal state (10_state.md R40 to R47) -/
  engine : Engine
  /-- THE MODEL'S OWN: the events still to happen, in order (20_memory.md R68, R69; log entry 1) -/
  pending : List Event
  /-- THE HOST'S: the values its BusReads returned, oldest first (30_encoding.md R96; log entry 7) -/
  readLog : List Word
deriving DecidableEq, Repr

/-! ## Reset values (10_state.md R49) -/

/-- STATUS = 0. -/
def Status.reset : Status := ⟨false, false, .none, false⟩

/-- Every stored register is 0. -/
def Regs.reset : Regs := ⟨0, 0, 0, 0, 0, 0, 0, 0, 0, 0, 0, 0, 0, 0, 0, 0⟩

/-- DESIGN CHOICE (log entry 2): 10_state.md R49 leaves these "unspecified; never read before the next accept writes them". -/
def Engine.reset : Engine :=
  { op := .enc, n := 0, i := 0, box := ⟨0, 0, 0, 0⟩, vlat := 0, vlon := 0, grp := 0,
    buf := Vector.replicate 16 0, vals := [] }

/-- The machine right after reset (10_state.md R49, 70_reset_and_hazards.md R211): MAXP is the default of 00_scope.md R5, BASE is
open (DESIGN CHOICE 0, log entry 3), nothing is pending and nothing has been read. -/
def State.reset : State :=
  { params := ⟨Config.defaultMaxp, 0⟩, status := Status.reset, regs := Regs.reset, engine := Engine.reset,
    pending := [], readLog := [] }

/-! ## How a step can stop -/

/-- The reasons a step stops with a fault. No instruction raises one. -/
inductive Fault where
  /-- Raised by an `access` event whose word lies outside the window (20_memory.md R66: beyond the window no I/O region
  exists). Safe: the model stops where the block sees no transaction. -/
  | outsideWindow
deriving DecidableEq, Repr

/-- The reasons a step is refused. -/
inductive Refusal where
  /-- Raised by an arm of exec whose instruction has no meaning in the model. No arm does. Safe. -/
  | notModelled (mnemonic : String)
  /-- Raised by an `access` event of another width or alignment than one word (20_memory.md R62: "A model refuses such an
  access: it gives it no meaning"). Safe. -/
  | notATransaction
deriving DecidableEq, Repr

end Sys2Proof.Machine
end

