-- ==== Sys2Proof/Machine/Flags.lean ====
section
/-! DEFINITION. STATUS as a word and the four ways it changes (10_state.md R22 to R26). GHC has no other flags (R37). -/

namespace Sys2Proof.Machine

/-- The number of an error code (60_exceptions.md R190). -/
def errorNumber : ErrorCode → BitVec 4
  | .none => 0#4
  | .outOfRange => 1#4
  | .invalidPrecision => 2#4
  | .invalidCharacter => 3#4
  | .emptyInput => 4#4
  | .invalidCommand => 5#4

/-- STATUS as the host reads it (10_state.md R22): bits 63:9 are 0, OVR is bit 8, ERR is bits 7:4, bits 3:2 are 0, DONE is
bit 1, BUSY is bit 0. -/
def statusWord (f : Status) : Word :=
  (BitVec.ofBool f.busy).setWidth 64 ||| ((BitVec.ofBool f.done).setWidth 64 <<< 1) |||
    ((errorNumber f.err).setWidth 64 <<< 4) ||| ((BitVec.ofBool f.ovr).setWidth 64 <<< 8)

/-- The first act of accept (44_control.md R180): DONE, ERR and OVR become 0. -/
def statusAccepted (f : Status) : Status := { f with done := false, err := .none, ovr := false }

/-- A valid ENCODE or DECODE sets BUSY (42_encode.md R143, 43_decode.md R163). -/
def statusBusy (f : Status) : Status := { f with busy := true }

/-- `finish(code)` on STATUS (44_control.md R183): BUSY 0, DONE 1, ERR the code; OVR keeps its value. -/
def statusFinished (code : ErrorCode) (f : Status) : Status := { f with busy := false, done := true, err := code }

/-- A dropped write sets OVR and nothing else (44_control.md R181). -/
def statusOverrun (f : Status) : Status := { f with ovr := true }

end Sys2Proof.Machine
end

