-- ==== Sys2Proof/Machine/Operands.lean ====
section
/-! DEFINITION. Where operands come from: the register window by index, access classes, the bytes of the hash buffer and
the integer readings of PREC and HLEN (10_state.md part 1). -/

namespace Sys2Proof.Machine

/-! ## The window -/

/-- The register at a word index (10_state.md part 1, 30_encoding.md R83). -/
def regAt (idx : Index) : Reg :=
  match idx.toNat with
  | 0 => .config
  | 1 => .cmd
  | 2 => .status
  | 3 => .result
  | 4 => .lat
  | 5 => .lon
  | 6 => .prec
  | 7 => .hlen
  | 8 => .hash0
  | 9 => .hash1
  | 10 => .latmin
  | 11 => .latmax
  | 12 => .lonmin
  | 13 => .lonmax
  | 14 => .clat
  | 15 => .clon
  | 16 => .rval
  | 17 => .rlow
  | 18 => .rhigh
  | _ => .reserved

/-- The access class of a register (10_state.md part 1). -/
def accessOf : Reg → Access
  | .config => .ro
  | .cmd => .wo
  | .status => .ro
  | .result => .ro
  | .lat => .rw
  | .lon => .rw
  | .prec => .rw
  | .hlen => .rw
  | .hash0 => .rw
  | .hash1 => .rw
  | .latmin => .ro
  | .latmax => .ro
  | .lonmin => .ro
  | .lonmax => .ro
  | .clat => .ro
  | .clon => .ro
  | .rval => .rw
  | .rlow => .rw
  | .rhigh => .rw
  | .reserved => .rsv

/-- CONFIG (10_state.md R20): MAXP in bits 7:0, 0 in bits 63:8. -/
def configWord (p : Config.Params) : Word := (BitVec.ofNat 8 p.maxp).setWidth 64

/-- What a BusRead of a register returns (20_memory.md R60): 0 for CMD and the reserved words, the fields of STATUS, the
content of every other register. -/
def readReg (s : State) : Reg → Word
  | .config => configWord s.params
  | .cmd => 0#64
  | .status => statusWord s.status
  | .result => s.regs.result
  | .lat => s.regs.lat
  | .lon => s.regs.lon
  | .prec => s.regs.prec
  | .hlen => s.regs.hlen
  | .hash0 => s.regs.hash0
  | .hash1 => s.regs.hash1
  | .latmin => s.regs.latmin
  | .latmax => s.regs.latmax
  | .lonmin => s.regs.lonmin
  | .lonmax => s.regs.lonmax
  | .clat => s.regs.clat
  | .clon => s.regs.clon
  | .rval => s.regs.rval
  | .rlow => s.regs.rlow
  | .rhigh => s.regs.rhigh
  | .reserved => 0#64

/-- The host's store of a whole word to a RW register (10_state.md R36). The registers of the other classes take no store. -/
def storeReg (r : Regs) (v : Word) : Reg → Regs
  | .lat => { r with lat := v }
  | .lon => { r with lon := v }
  | .prec => { r with prec := v }
  | .hlen => { r with hlen := v }
  | .hash0 => { r with hash0 := v }
  | .hash1 => { r with hash1 := v }
  | .rval => { r with rval := v }
  | .rlow => { r with rlow := v }
  | .rhigh => { r with rhigh := v }
  | .config => r
  | .cmd => r
  | .status => r
  | .result => r
  | .latmin => r
  | .latmax => r
  | .lonmin => r
  | .lonmax => r
  | .clat => r
  | .clon => r
  | .reserved => r

/-! ## The hash buffer (10_state.md R28) -/

/-- HB(k): byte k of HASH0 for k < 8, byte k - 8 of HASH1 for 8 <= k < 16. -/
def hashByte (r : Regs) (k : Nat) : Byte :=
  if k < 8 then r.hash0.extractLsb' (8 * k) 8 else r.hash1.extractLsb' (8 * (k - 8)) 8

/-- The word of the eight bytes f 0 to f 7, byte 0 least significant. -/
def packBytes (f : Nat → Byte) : Word :=
  (f 0).setWidth 64 ||| ((f 1).setWidth 64 <<< 8) ||| ((f 2).setWidth 64 <<< 16) ||| ((f 3).setWidth 64 <<< 24) |||
    ((f 4).setWidth 64 <<< 32) ||| ((f 5).setWidth 64 <<< 40) ||| ((f 6).setWidth 64 <<< 48) ||| ((f 7).setWidth 64 <<< 56)

/-- HASH0 of the sixteen bytes of a string, bytes past its end 0x00 (30_encoding.md R96). DESIGN CHOICE (log entry 18): of a string literal of
more than 16 characters, of which the spec says nothing, the characters from position 16 on are in neither word. -/
def packHash0 (str : List Byte) : Word := packBytes fun k => str.getD k 0#8

/-- HASH1 of the sixteen bytes of a string, with the same choice for a longer one (log entry 18). -/
def packHash1 (str : List Byte) : Word := packBytes fun k => str.getD (k + 8) 0#8

/-- HB(0) to HB(n-1). -/
def hashString (r : Regs) (n : Nat) : List Byte := (List.range n).map (hashByte r)

/-! ## Integer operands -/

/-- `as_s64(REG[PREC])` (10_state.md R31). -/
def precision (r : Regs) : Int := r.prec.toInt

/-- `as_u64(REG[HLEN])` (10_state.md R29). -/
def hashLength (r : Regs) : Nat := r.hlen.toNat

/-- Match of `1 <= p <= MAXP` (42_encode.md R142). -/
def precisionLegal (p : Int) (maxp : Nat) : Bool := decide (1 ≤ p) && decide (p ≤ (maxp : Int))

end Sys2Proof.Machine
end

