-- ==== Sys2Proof/Machine/Ops.lean ====
section
/-! DEFINITION. The operations all instructions share: accepting a command, finishing it (with or without an error),
dropping a write, and reset. There is no trap entry and no trap return (60_exceptions.md R196, R197): `raise` is the whole of
taking an error. -/

namespace Sys2Proof.Machine

/-- `finish(code)` (44_control.md R183). -/
def finish (code : ErrorCode) (s : State) : State := { s with status := statusFinished code s.status }

/-- `raise Error(code)` (00_scope.md R11): the same as `finish(code)`, and nothing else of the command takes place
(44_control.md R183, 60_exceptions.md R192, R196). DESIGN CHOICE (log entry 21): so the engine's fields stay as they were too,
where 93_implementation_defined.md I9 leaves them any value after a failed accept. -/
def raise (code : ErrorCode) (s : State) : State := finish code s

/-- A host write dropped while BUSY = 1 (44_control.md R181): "The only effect is STATUS.OVR <- 1". -/
def dropWrite (s : State) : State := { s with status := statusOverrun s.status }

/-- The first act of accept (44_control.md R180). -/
def clearForAccept (s : State) : State := { s with status := statusAccepted s.status }

/-- A CMD write (20_memory.md R61): dropped while BUSY = 1; otherwise accepted, DONE, ERR and OVR cleared, and the command's
own effect `body` takes place within the write (44_control.md R180). -/
def accepting (body : State → State) (s : State) : State :=
  if s.status.busy then dropWrite s else body (clearForAccept s)

/-- A host write of a RW register (20_memory.md R61): stored while BUSY = 0, dropped while BUSY = 1. -/
def storeOrDrop (r : Reg) (v : Word) (s : State) : State :=
  if s.status.busy then dropWrite s else { s with regs := storeReg s.regs v r }

/-- The reset input (70_reset_and_hazards.md R210): every piece of state takes its reset value, CONFIG (MAXP) apart
(10_state.md R49). BASE, the events to come and the host's read log are not the block's. -/
def applyReset (s : State) : State :=
  { s with status := Status.reset, regs := Regs.reset, engine := Engine.reset }

end Sys2Proof.Machine
end

