-- ==== Sys2Proof/Machine/Base32.lean ====
section
/-! DEFINITION. The base-32 encoder and decoder and the commands ENCCHAR and DECCHAR (41_base32.md; the alphabet is
30_encoding.md R90 to R93, its ASCII codes general knowledge of the spec, log entry 14). -/

namespace Sys2Proof.Machine

/-- The codes of the symbols of value 0 to 15: "0123456789bcdefg" (30_encoding.md R92). -/
def alphabetLow : List Byte :=
  [0x30#8, 0x31#8, 0x32#8, 0x33#8, 0x34#8, 0x35#8, 0x36#8, 0x37#8,
   0x38#8, 0x39#8, 0x62#8, 0x63#8, 0x64#8, 0x65#8, 0x66#8, 0x67#8]

/-- The codes of the symbols of value 16 to 31: "hjkmnpqrstuvwxyz" (30_encoding.md R92). -/
def alphabetHigh : List Byte :=
  [0x68#8, 0x6A#8, 0x6B#8, 0x6D#8, 0x6E#8, 0x70#8, 0x71#8, 0x72#8,
   0x73#8, 0x74#8, 0x75#8, 0x76#8, 0x77#8, 0x78#8, 0x79#8, 0x7A#8]

/-- The alphabet in the order of its values (30_encoding.md R90). -/
def alphabet : List Byte := alphabetLow ++ alphabetHigh

/-- `ALPH[v]` (41_base32.md R130). -/
def alph (v : Quintet) : Byte := alphabet.getD v.toNat 0#8

/-- The 32 values, in order. -/
def allValues : List Quintet := (List.range 32).map (BitVec.ofNat 5)

/-- `VAL(c)` (41_base32.md R131): v if c == ALPH[v] for some v in 0..31, NONE otherwise. -/
def valOf (c : Byte) : Option Quintet := allValues.find? fun v => alph v == c

/-- The values of a string's characters; none if one of them is not in the alphabet (43_decode.md R162, R163). -/
def valuesOf : List Byte → Option (List Quintet)
  | [] => some []
  | c :: rest =>
    match valOf c, valuesOf rest with
    | some v, some vs => some (v :: vs)
    | _, _ => none

/-- ENCCHAR (41_base32.md R133): RESULT <- zext_64(ALPH[v]) with v = ARG[4:0]. A word whose ARG[7:5] is not 0 is not ENCCHAR
but InvalidCommand, so an ill-formed argument ends so here too (log entry 15). -/
def execEncchar (arg : Byte) (s : State) : Host.Outcome State Fault Refusal :=
  .next <| accepting (fun a =>
    if arg.extractLsb' 5 3 = 0#3 then
      finish .none { a with regs := { a.regs with result := (alph (arg.extractLsb' 0 5)).setWidth 64 } }
    else raise .invalidCommand a) s

/-- DECCHAR (41_base32.md R134): RESULT <- zext_64(VAL(c)), or InvalidCharacter with RESULT unchanged. -/
def execDecchar (c : Byte) (s : State) : Host.Outcome State Fault Refusal :=
  .next <| accepting (fun a =>
    match valOf c with
    | none => raise .invalidCharacter a
    | some v => finish .none { a with regs := { a.regs with result := v.setWidth 64 } }) s

end Sys2Proof.Machine
end

