-- ==== Sys2Proof/Machine/Float64.lean ====
section
/-! DEFINITION. The binary64 arithmetic of the bisector (00_scope.md R10, 40_refine.md R110): addition, division by two and
the ordered comparison, on 64-bit encodings. A finite operand is turned into an exact integer count of units of 2^-1074 (the
least positive binary64), the exact result is formed there, and one rounding narrows it. PRESUMED (log entry 13): the IEEE-754
facts, which the spec itself marks as general knowledge (93_implementation_defined.md G1). -/

namespace Sys2Proof.Machine

/-! ## The encoding (00_scope.md R10) -/

/-- The biased exponent, bits 62 to 52. -/
def expField (w : Word) : Nat := (w.extractLsb' 52 11).toNat

/-- The fraction, bits 51 to 0. -/
def fracField (w : Word) : Nat := (w.extractLsb' 0 52).toNat

/-- The sign, bit 63: true for a negative value. -/
def signBit (w : Word) : Bool := w.getLsbD 63

/-- A NaN: biased exponent all ones, fraction not 0. -/
def isNaN (w : Word) : Bool := expField w == 2047 && fracField w != 0

/-- An infinity: biased exponent all ones, fraction 0. -/
def isInf (w : Word) : Bool := expField w == 2047 && fracField w == 0

/-- A finite value. -/
def isFinite (w : Word) : Bool := expField w != 2047

/-- |f64(w)| in units of 2^-1074, for a finite w. (Of an infinity the formula gives 2^2098, above every finite value.) -/
def magnitude (w : Word) : Nat :=
  if expField w = 0 then fracField w else (2 ^ 52 + fracField w) * 2 ^ (expField w - 1)

/-- f64(w) in units of 2^-1074, for a finite w; an infinity counts as ±2^2098. -0.0 and +0.0 have the same value. -/
def value (w : Word) : Int := if signBit w then -(magnitude w : Int) else (magnitude w : Int)

/-! ## Rounding to nearest, ties to even -/

/-- num / den to the nearest integer, ties to the even one. -/
def roundHalfEven (num den : Nat) : Nat :=
  if 2 * (num % den) < den then num / den
  else if den < 2 * (num % den) then num / den + 1
  else num / den + num / den % 2

/-- Bits 62:0 of an infinity. -/
def infBits : Nat := 0x7FF0000000000000

/-- Bits 62:0 of the binary64 nearest to num / den units of 2^-1074. Its last place is worth 2^e units, with e the least
number that leaves at most 53 bits; the significand m then takes its place, and counts up the exponent, in e * 2^52 + m. A
result of 2^1024 or more is an infinity. -/
def roundMagnitude (num den : Nat) : Nat :=
  let e := Nat.log2 (num / den) - 52
  min (e * 2 ^ 52 + roundHalfEven num (den * 2 ^ e)) infBits

/-- The word of a sign and bits 62:0. -/
def withSign (neg : Bool) (bits : Nat) : Word := BitVec.ofNat 64 (neg.toNat * 2 ^ 63 + bits)

/-! ## The operations -/

/-- `x +f y`. An exact zero sum is +0.0 unless both operands are negative zeros. A NaN result is CNAN (40_refine.md R110). -/
def add (x y : Word) : Word :=
  if isNaN x || isNaN y then Config.cnan
  else if isInf x then (if isInf y && signBit x != signBit y then Config.cnan else x)
  else if isInf y then y
  else if value x + value y = 0 then withSign (signBit x && signBit y) 0
  else withSign (decide (value x + value y < 0)) (roundMagnitude (value x + value y).natAbs 1)

/-- `x /f 2`. The sign is kept. A NaN result is CNAN (40_refine.md R110). -/
def half (x : Word) : Word :=
  if isNaN x then Config.cnan
  else if isInf x then x
  else withSign (signBit x) (roundMagnitude (magnitude x) 2)

/-- `x >=f y`: false when either operand is a NaN; -0.0 and +0.0 are equal (00_scope.md R10). -/
def ge (x y : Word) : Bool := !isNaN x && !isNaN y && decide (value y ≤ value x)

/-- `x <=f y` (42_encode.md R141). -/
def le (x y : Word) : Bool := ge y x

end Sys2Proof.Machine
end

