-- ==== Sys2Proof/Machine/Bisector.lean ====
section
/-! DEFINITION. The interval bisector and the axis select of the bit interleaver (40_refine.md parts 1 and 2). -/

namespace Sys2Proof.Machine

/-- The mid-point (40_refine.md R110): `mid(lo, hi) = (lo +f hi) /f 2`. -/
def mid (lo hi : Word) : Word := half (add lo hi)

/-- The bisection primitive (40_refine.md R111, R112): the bit, the new low word and the new high word. -/
def refine (v lo hi : Word) : Bool × Word × Word :=
  let m := mid lo hi
  if ge v m then (true, m, hi) else (false, lo, m)

/-- Which axis the engine bisects at bit index k (40_refine.md R116): longitude for even k, latitude for odd k. -/
def onLongitude (k : Nat) : Bool := k % 2 == 0

/-- The full ranges both commands start from (42_encode.md R143, 43_decode.md R163). -/
def fullBox : Box := ⟨Config.lonMin, Config.lonMax, Config.latMin, Config.latMax⟩

/-- ENCODE's bisection at bit index k (42_encode.md R144): the bit, and the box with the selected axis narrowed. -/
def refineAxis (k : Nat) (vlat vlon : Word) (x : Box) : Bool × Box :=
  if onLongitude k then
    let r := refine vlon x.lonlo x.lonhi
    (r.1, { x with lonlo := r.2.1, lonhi := r.2.2 })
  else
    let r := refine vlat x.latlo x.lathi
    (r.1, { x with latlo := r.2.1, lathi := r.2.2 })

/-- DECODE's halving at bit index k by bit b (43_decode.md R164): the upper half for 1, the lower half for 0. -/
def halveAxis (k : Nat) (b : Bool) (x : Box) : Box :=
  if onLongitude k then
    let m := mid x.lonlo x.lonhi
    if b then { x with lonlo := m } else { x with lonhi := m }
  else
    let m := mid x.latlo x.lathi
    if b then { x with latlo := m } else { x with lathi := m }

end Sys2Proof.Machine
end

