-- ==== Sys2Proof/Machine/DecodeCommand.lean ====
section
/-! DEFINITION. The DECODE command: its accept, its bit step and its commit (43_decode.md). -/

namespace Sys2Proof.Machine

/-- `init_decode(n)` on the engine (43_decode.md R163); the fields DECODE does not use keep what they held. -/
def engineForDecode (e : Engine) (n : Nat) (vals : List Quintet) : Engine :=
  { e with op := .dec, n := n, i := 0, vals := vals, box := fullBox }

/-- DECODE's accept after DONE, ERR and OVR are cleared (43_decode.md R160 to R162): EmptyInput, then InvalidPrecision, then
InvalidCharacter among HB(0) to HB(n-1) (60_exceptions.md R193), then the engine starts. DESIGN CHOICE (log entry 21): a failed
accept leaves the engine's fields as they were, where 93_implementation_defined.md I9 leaves them any value. -/
def acceptDecode (a : State) : State :=
  if hashLength a.regs = 0 then raise .emptyInput a
  else if a.params.maxp < hashLength a.regs then raise .invalidPrecision a
  else match valuesOf (hashString a.regs (hashLength a.regs)) with
    | none => raise .invalidCharacter a
    | some vals => { a with status := statusBusy a.status,
                            engine := engineForDecode a.engine (hashLength a.regs) vals }

/-- DECODE (43_decode.md R160): the CMD write. The bit steps are the engine's (`decodeStep`). -/
def execDecode (s : State) : Host.Outcome State Fault Refusal := .next <| accepting acceptDecode s

/-! ## The engine's steps -/

/-- The bit of index k in the characters' values (30_encoding.md R94, R95): value bit 4 - (k mod 5) of character k div 5.
Past the last character there is no bit; the engine never asks for one (log entry 16). -/
def bitOfValues (vals : List Quintet) (k : Nat) : Bool := (vals.getD (k / 5) 0#5).getLsbD (4 - k % 5)

/-- The engine after one decode step (43_decode.md R164), the commit apart. -/
def decodeAdvance (e : Engine) : Engine :=
  { e with box := halveAxis e.i (bitOfValues e.vals e.i) e.box, i := e.i + 1 }

/-- The registers at DECODE's commit (43_decode.md R166): the box and the centroid. -/
def commitDecodeRegs (e : Engine) (r : Regs) : Regs :=
  { r with latmin := e.box.latlo, latmax := e.box.lathi, lonmin := e.box.lonlo, lonmax := e.box.lonhi,
           clat := mid e.box.latlo e.box.lathi, clon := mid e.box.lonlo e.box.lonhi }

/-- `commit_decode` (43_decode.md R166). DESIGN CHOICE (log entry 21): the engine's fields keep what the last step left, where
93_implementation_defined.md I9 leaves them any value after a commit. -/
def commitDecode (s : State) : State := finish .none { s with regs := commitDecodeRegs s.engine s.regs }

/-- `decode_step` (43_decode.md R164): one bit, and the commit if it is the last. -/
def decodeStep (s : State) : State :=
  let s1 := { s with engine := decodeAdvance s.engine }
  if s1.engine.i = Config.bitsPerChar * s1.engine.n then commitDecode s1 else s1

end Sys2Proof.Machine
end

