-- ==== Sys2Proof/Machine/EncodeCommand.lean ====
section
/-! DEFINITION. The ENCODE command: its accept, its bit step and its commit (42_encode.md). -/

namespace Sys2Proof.Machine

/-- The range check (42_encode.md R141), four IEEE ordered comparisons with inclusive bounds. -/
def inRange (lat lon : Word) : Bool :=
  le Config.latMin lat && le lat Config.latMax && le Config.lonMin lon && le lon Config.lonMax

/-- `init_encode(lat, lon, p)` on the engine (42_encode.md R143); E.VALS, which ENCODE does not use, keeps what it held. -/
def engineForEncode (e : Engine) (lat lon : Word) (p : Nat) : Engine :=
  { e with op := .enc, n := p, i := 0, grp := 0#5, buf := Vector.replicate 16 0#8, vlat := lat, vlon := lon,
           box := fullBox }

/-- ENCODE's accept after DONE, ERR and OVR are cleared (42_encode.md R140): OutOfRange before InvalidPrecision
(60_exceptions.md R193), then the engine starts. DESIGN CHOICE (log entry 21): a failed accept leaves the engine's fields as they
were, where 93_implementation_defined.md I9 leaves them any value. -/
def acceptEncode (a : State) : State :=
  if inRange a.regs.lat a.regs.lon = false then raise .outOfRange a
  else if precisionLegal (precision a.regs) a.params.maxp = false then raise .invalidPrecision a
  else { a with status := statusBusy a.status,
                engine := engineForEncode a.engine a.regs.lat a.regs.lon (precision a.regs).toNat }

/-- ENCODE (42_encode.md R140): the CMD write. The bit steps are the engine's (`encodeStep`). -/
def execEncode (s : State) : Host.Outcome State Fault Refusal := .next <| accepting acceptEncode s

/-! ## The engine's steps -/

/-- `emit(j)` (42_encode.md R145): E.BUF[j] <- ALPH[E.GRP], then E.GRP <- 0. -/
def emit (e : Engine) (j : Nat) : Engine := { e with buf := e.buf.setIfInBounds j (alph e.grp), grp := 0#5 }

/-- The bisection of one encode step and the group's shift (42_encode.md R144, 40_refine.md R118). -/
def encodeBisect (e : Engine) : Engine :=
  let o := refineAxis e.i e.vlat e.vlon e.box
  { e with box := o.2, grp := (e.grp <<< 1) ||| (BitVec.ofBool o.1).setWidth 5 }

/-- The engine after one encode step (42_encode.md R144), the commit apart. -/
def encodeAdvance (e : Engine) : Engine :=
  let e1 := encodeBisect e
  let e2 := if e.i % 5 = 4 then emit e1 (e.i / 5) else e1
  { e2 with i := e.i + 1 }

/-- The registers at ENCODE's commit (42_encode.md R147): HB(k) <- E.BUF[k] for k in 0..15, HLEN <- zext_64(E.N). -/
def commitEncodeRegs (e : Engine) (r : Regs) : Regs :=
  { r with hash0 := packHash0 e.buf.toList, hash1 := packHash1 e.buf.toList, hlen := BitVec.ofNat 64 e.n }

/-- `commit_encode` (42_encode.md R147). DESIGN CHOICE (log entry 21): the engine's fields keep what the last step left (E.I = 5 x E.N, the
final intervals, E.BUF), where 93_implementation_defined.md I9 leaves them any value after a commit. -/
def commitEncode (s : State) : State := finish .none { s with regs := commitEncodeRegs s.engine s.regs }

/-- `encode_step` (42_encode.md R144): one bit, and the commit if it is the last. -/
def encodeStep (s : State) : State :=
  let s1 := { s with engine := encodeAdvance s.engine }
  if s1.engine.i = Config.bitsPerChar * s1.engine.n then commitEncode s1 else s1

end Sys2Proof.Machine
end

