-- ==== Sys2Proof/Machine/Refine.lean ====
section
/-! DEFINITION. The REFINE command (40_refine.md part 3). -/

namespace Sys2Proof.Machine

/-- The registers after one bisection on host operands (40_refine.md R119): RLOW, RHIGH and RESULT are written. -/
def refineRegs (r : Regs) : Regs :=
  let o := refine r.rval r.rlow r.rhigh
  { r with rlow := o.2.1, rhigh := o.2.2, result := (BitVec.ofBool o.1).setWidth 64 }

/-- REFINE (40_refine.md R119). It has no error. -/
def execRefine (s : State) : Host.Outcome State Fault Refusal :=
  .next <| accepting (fun a => finish .none { a with regs := refineRegs a.regs }) s

end Sys2Proof.Machine
end

