-- ==== Sys2Proof/Machine/Control.lean ====
section
/-! DEFINITION. NOP, illegal command words, the CMD write and the engine's step (44_control.md). -/

namespace Sys2Proof.Machine

/-- NOP (44_control.md R184): it does nothing except finish. -/
def execNop (s : State) : Host.Outcome State Fault Refusal := .next <| accepting (finish .none) s

/-- A CMD write of an illegal word (44_control.md R185). -/
def execInvalid (s : State) : Host.Outcome State Fault Refusal := .next <| accepting (raise .invalidCommand) s

/-- A BusWrite to CMD of the word w (44_control.md R180, in its own order: valid(w) first, then the case on OP). Each command's
meaning drops the write while BUSY = 1 (R181). A valid word has no other OP, so the last arm is never reached. -/
def writeCommand (w : Word) (s : State) : Host.Outcome State Fault Refusal :=
  if validWord w then
    match (cmdOp w).toNat with
    | 0 => execNop s
    | 1 => execEncode s
    | 2 => execDecode s
    | 3 => execRefine s
    | 4 => execEncchar (cmdArg w) s
    | 5 => execDecchar (cmdArg w) s
    | _ => execInvalid s
  else execInvalid s

/-- One engine step (44_control.md R187): encode_step or decode_step by E.OP while BUSY = 1; none while BUSY = 0. -/
def engineStep (s : State) : State :=
  if s.status.busy then
    match s.engine.op with
    | .enc => encodeStep s
    | .dec => decodeStep s
  else s

end Sys2Proof.Machine
end

