-- ==== Sys2Proof/Machine/Bus.lean ====
section
/-! DEFINITION. The bus transactions RD and WR (20_memory.md part 1) and the platform's byte-address mapping (R62). -/

namespace Sys2Proof.Machine

/-- RD, BusRead(idx) (20_memory.md R60): the block does not change; the value returned is appended to the host's read log
(30_encoding.md R96). -/
def execRd (idx : Index) (s : State) : Host.Outcome State Fault Refusal :=
  .next { s with readLog := s.readLog ++ [readReg s (regAt idx)] }

/-- WR, BusWrite(idx, v) (20_memory.md R61): a CMD write is accept or dropped, a RW write is stored or dropped, a write of a RO
register or a reserved word has no effect. -/
def execWr (idx : Index) (data : Word) (s : State) : Host.Outcome State Fault Refusal :=
  match accessOf (regAt idx) with
  | .wo => writeCommand data s
  | .rw => .next (storeOrDrop (regAt idx) data s)
  | .ro => .next s
  | .rsv => .next s

/-- What a byte-addressed host access is (20_memory.md R62): an access of 8 bytes at BASE + 8 * idx is the one transaction on word
idx; another width or alignment is refused; a whole word outside the window is a fault (log entry 12). -/
def accessInstr (base addr bytes : Nat) (wdata : Option Word) : Except (Fault ⊕ Refusal) Instr :=
  let offset : Int := (addr : Int) - (base : Int)
  if bytes ≠ Config.wordBytes ∨ offset % 8 ≠ 0 then .error (.inr .notATransaction)
  else if offset < 0 ∨ 8 * (Config.windowWords : Int) ≤ offset then .error (.inl .outsideWindow)
  else match wdata with
    | none => .ok (.rd (BitVec.ofNat 5 (offset.toNat / 8)))
    | some v => .ok (.wr (BitVec.ofNat 5 (offset.toNat / 8)) v)

end Sys2Proof.Machine
end

