-- ==== Sys2Proof/Machine/Dispatch.lean ====
section
/-! DEFINITION. One arm per constructor of Instr, each one call of its meaning. -/

namespace Sys2Proof.Machine

def exec (i : Instr) (s : State) : Host.Outcome State Fault Refusal :=
  match i with
  | .nop => Sys2Proof.Machine.execNop s
  | .encode => Sys2Proof.Machine.execEncode s
  | .decode => Sys2Proof.Machine.execDecode s
  | .refine => Sys2Proof.Machine.execRefine s
  | .encchar arg => Sys2Proof.Machine.execEncchar arg s
  | .decchar c => Sys2Proof.Machine.execDecchar c s
  | .rd idx => Sys2Proof.Machine.execRd idx s
  | .wr idx data => Sys2Proof.Machine.execWr idx data s

end Sys2Proof.Machine
end

