-- ==== Sys2Proof/Machine/Events.lean ====
section
/-! DEFINITION. What one event of the total order does (20_memory.md R68), on the state from which it has been taken. -/

namespace Sys2Proof.Machine

/-- A host transaction: its record is decoded and the instruction runs (20_memory.md R60, R61). -/
def runRecord (r : Record) (s : State) : Host.Outcome State Fault Refusal := exec (decodeBus r) s

/-- A byte-addressed host access (20_memory.md R62). -/
def runAccess (addr bytes : Nat) (wdata : Option Word) (s : State) : Host.Outcome State Fault Refusal :=
  match accessInstr s.params.base addr bytes wdata with
  | .ok i => exec i s
  | .error (.inl f) => .fault f
  | .error (.inr r) => .refused r

/-- The index of STATUS (10_state.md R22). -/
def statusIndex : Index := 2#5

/-- What follows a read of STATUS that showed BUSY = 1: some engine steps, then the loop again (log entry 8). -/
def waitAgain : List Nat → List Event
  | [] => [.engine, .wait []]
  | g :: gs => List.replicate g .engine ++ [.wait gs]

/-- One turn of the WAIT loop (30_encoding.md R97): a BusRead of STATUS; the loop ends when bit 0 of the value read is 0. DESIGN CHOICE
(log entry 8): a loop that goes on stands first among the events to come, so neither a reset nor another host's transaction falls
between two of its reads; single reads of STATUS express such a run. -/
def runWait (gaps : List Nat) (s : State) : Host.Outcome State Fault Refusal :=
  match exec (.rd statusIndex) s with
  | .next t => .next (if (readReg s (regAt statusIndex)).getLsbD 0 then { t with pending := waitAgain gaps ++ t.pending } else t)
  | .fault f => .fault f
  | .refused r => .refused r

/-- One event. -/
def runEvent (e : Event) (s : State) : Host.Outcome State Fault Refusal :=
  match e with
  | .bus r => runRecord r s
  | .engine => .next (engineStep s)
  | .reset _ => .next (applyReset s)
  | .access addr bytes wdata => runAccess addr bytes wdata s
  | .wait gaps => runWait gaps s

end Sys2Proof.Machine
end

