-- ==== Sys2Proof/Machine/Step.lean ====
section
/-! DEFINITION. One step of the machine: the next event of the total order (20_memory.md R68). -/

namespace Sys2Proof.Machine

/-- The next pending event happens. With none pending, the engine takes its step while BUSY = 1 (44_control.md R188, weak
fairness), and the block holds its state while BUSY = 0 (60_exceptions.md R204) (log entry 9). -/
def step (s : State) : Host.Outcome State Fault Refusal :=
  match s.pending with
  | [] => .next (engineStep s)
  | e :: rest => runEvent e { s with pending := rest }

/-- The state whose very next step runs the instruction of the opcode table's bits: it is delivered as the next host
transaction, a command word in a BusWrite to CMD (log entry 1). -/
def State.withFetchWord (s : State) (nbits w : Nat) : State :=
  { s with pending := .bus (tableEncoding nbits w).toRecord :: s.pending }

end Sys2Proof.Machine
end

