-- ==== Sys2Proof/Machine/Assembler.lean ====
section
/-! DEFINITION. The host-program notation of 30_encoding.md part 3: literals, statements and pseudo-instructions, each assembled
to the events of State.pending. -/

namespace Sys2Proof.Machine

/-- A decimal numeral: sign, digits, and how many of them stand after the point. -/
structure Decimal where
  neg : Bool
  digits : Nat
  places : Nat
deriving DecidableEq, Repr

/-- `f64(<decimal>)`: the bits of the binary64 value nearest the decimal, ties to even (30_encoding.md R96). -/
def decimalWord (d : Decimal) : Word := withSign d.neg (roundMagnitude (d.digits * 2 ^ 1074) (10 ^ d.places))

/-- The commands' mnemonics, as `cmd(<MNEMONIC>)` names them (30_encoding.md R85, R96). -/
inductive Mnemonic where
  | nop | encode | decode | refine | encchar | decchar
deriving DecidableEq, Repr

/-- OP of a mnemonic (30_encoding.md R85). -/
def opOf : Mnemonic → BitVec 4
  | .nop => 0#4
  | .encode => 1#4
  | .decode => 2#4
  | .refine => 3#4
  | .encchar => 4#4
  | .decchar => 5#4

/-- `<value>` of a WR statement (30_encoding.md R96). -/
inductive Value where
  /-- an integer literal, taken modulo 2^64 -/
  | int (n : Int)
  /-- `f64(<decimal>)` -/
  | f64 (d : Decimal)
  /-- `str0("<s>")`, s as its character codes. DESIGN CHOICE (log entry 18): the characters of s from position 16 on, of which the spec
  says nothing, are in neither word. -/
  | str0 (s : List Byte)
  /-- `str1("<s>")`, with the same choice for a longer s -/
  | str1 (s : List Byte)
  /-- `cmd(<MNEMONIC>, <arg>)`; the default argument is 0 -/
  | cmd (m : Mnemonic) (arg : Byte)
deriving DecidableEq, Repr

/-- The word a value denotes (30_encoding.md R82, R96). -/
def valueWord : Value → Word
  | .int n => BitVec.ofInt 64 n
  | .f64 d => decimalWord d
  | .str0 s => packHash0 s
  | .str1 s => packHash1 s
  | .cmd m arg => cmdWord (opOf m) arg

/-- The word index of a register's name (30_encoding.md R83); the first reserved word, W19, stands for `reserved`. -/
def indexOf : Reg → Index
  | .config => 0#5
  | .cmd => 1#5
  | .status => 2#5
  | .result => 3#5
  | .lat => 4#5
  | .lon => 5#5
  | .prec => 6#5
  | .hlen => 7#5
  | .hash0 => 8#5
  | .hash1 => 9#5
  | .latmin => 10#5
  | .latmax => 11#5
  | .lonmin => 12#5
  | .lonmax => 13#5
  | .clat => 14#5
  | .clon => 15#5
  | .rval => 16#5
  | .rlow => 17#5
  | .rhigh => 18#5
  | .reserved => 19#5

/-- One statement of a host program (30_encoding.md R96 to R101). A register is given by its word index; the WAIT inside ENCODE and
DECODE carries its schedule, which the notation leaves open (20_memory.md R69). A DECODE of more than 16 characters writes HLEN its whole
length, as 30_encoding.md R99 states, and the first 16 to the hash buffer (log entry 18). -/
inductive Stmt where
  | wr (idx : Index) (v : Value)
  | rd (idx : Index)
  | wait (gaps : List Nat)
  | encode (lat lon : Decimal) (p : Int) (gaps : List Nat)
  | decode (s : List Byte) (gaps : List Nat)
  | refine (v lo hi : Decimal)
  | refineNext (v : Decimal)
  | encchar (v : Quintet)
  | decchar (c : Byte)
deriving DecidableEq, Repr

/-- `WR <reg>, <value>` as the event of its record. -/
def wrEvent (r : Reg) (v : Value) : Event := .bus (busRecord true (indexOf r) (valueWord v))

/-- The events a statement stands for: its transactions alone. DESIGN CHOICE (log entry 22): no engine slot stands between two of them or before
the first read of a WAIT, a number 20_memory.md R69 leaves open; `scheduled` puts any number there. -/
def expand : Stmt → List Event
  | .wr idx v => [.bus (busRecord true idx (valueWord v))]
  | .rd idx => [.bus (busRecord false idx 0#64)]
  | .wait gaps => [.wait gaps]
  | .encode lat lon p gaps =>
    [wrEvent .lat (.f64 lat), wrEvent .lon (.f64 lon), wrEvent .prec (.int p), wrEvent .cmd (.cmd .encode 0#8), .wait gaps]
  | .decode s gaps =>
    [wrEvent .hash0 (.str0 s), wrEvent .hash1 (.str1 s), wrEvent .hlen (.int s.length), wrEvent .cmd (.cmd .decode 0#8),
     .wait gaps]
  | .refine v lo hi =>
    [wrEvent .rval (.f64 v), wrEvent .rlow (.f64 lo), wrEvent .rhigh (.f64 hi), wrEvent .cmd (.cmd .refine 0#8)]
  | .refineNext v => [wrEvent .rval (.f64 v), wrEvent .cmd (.cmd .refine 0#8)]
  | .encchar v => [wrEvent .cmd (.cmd .encchar (v.setWidth 8))]
  | .decchar c => [wrEvent .cmd (.cmd .decchar c)]

/-- The events of a host program, in program order (20_memory.md R70), with no engine slot between them (log entry 22). -/
def assemble (program : List Stmt) : List Event := program.flatMap expand

/-- The events with engine slots before each of them and after the last, as many as the next number of `gaps` says, and none where `gaps` has
ended: `scheduled gaps (assemble program)` is the program under any interleaving of 20_memory.md R69. -/
def scheduled : List Nat → List Event → List Event
  | g :: gs, e :: es => List.replicate g .engine ++ e :: scheduled gs es
  | [], es => es
  | g :: _, [] => List.replicate g .engine

end Sys2Proof.Machine
end

