-- ==== Sys2Proof/Machine/CodecFn.lean ====
section
/-! DEFINITION. The codec as functions, apart from the engine: the encode function of 42_encode.md R149, the box of a bit
sequence (43_decode.md R164) and its closed form (R168). The machine does not call them; claims about the engine are stated in
their terms. -/

namespace Sys2Proof.Machine

/-! ## Encoding (42_encode.md R149) -/

/-- The intervals after k bisections of a coordinate, from the full ranges. -/
def boxAfter (lat lon : Word) : Nat → Box
  | 0 => fullBox
  | k + 1 => (refineAxis k lat lon (boxAfter lat lon k)).2

/-- b_k: the bit of refine on axis(k). -/
def encodeBit (lat lon : Word) (k : Nat) : Bool := (refineAxis k lat lon (boxAfter lat lon k)).1

/-- The number of the first j bits of the group that starts at bit index `start`, first bit most significant
(40_refine.md R118). -/
def groupNumber (bit : Nat → Bool) (start : Nat) : Nat → Nat
  | 0 => 0
  | j + 1 => 2 * groupNumber bit start j + (bit (start + j)).toNat

/-- g_j = b_{5j}·16 + b_{5j+1}·8 + b_{5j+2}·4 + b_{5j+3}·2 + b_{5j+4} (42_encode.md R145). -/
def groupOf (bit : Nat → Bool) (j : Nat) : Quintet :=
  BitVec.ofNat 5 ((bit (5 * j)).toNat * 16 + (bit (5 * j + 1)).toNat * 8 + (bit (5 * j + 2)).toNat * 4
    + (bit (5 * j + 3)).toNat * 2 + (bit (5 * j + 4)).toNat)

/-- `encodeFn(lat, lon, n)` (42_encode.md R149): character j is ALPH[g_j]. -/
def encodeFn (lat lon : Word) (n : Nat) : List Byte :=
  (List.range n).map fun j => alph (groupOf (encodeBit lat lon) j)

/-! ## Decoding (43_decode.md R164, R168) -/

/-- The intervals after the first k bits of a sequence. -/
def decodeBox (bit : Nat → Bool) : Nat → Box
  | 0 => fullBox
  | k + 1 => halveAxis k (bit k) (decodeBox bit k)

/-- L (for longitude) or T (for latitude) of the first k bits (43_decode.md R168): the number of the bits of that axis, first bit
most significant. -/
def axisNumber (bit : Nat → Bool) (longitude : Bool) : Nat → Nat
  | 0 => 0
  | k + 1 => if onLongitude k == longitude then 2 * axisNumber bit longitude k + (bit k).toNat
             else axisNumber bit longitude k

/-- a = ceil(k/2): how many of the first k bits bisect longitude (40_refine.md R117). -/
def lonBits (k : Nat) : Nat := (k + 1) / 2

/-- c = floor(k/2): how many of the first k bits bisect latitude (40_refine.md R117). -/
def latBits (k : Nat) : Nat := k / 2

end Sys2Proof.Machine
end

