-- ==== Sys2Proof/Safety.lean ====
section
/-! DEFINITION. The terms in which claims speak of good states and runs: the invariants, what the host can tell apart, and
which events a run may hold. -/

namespace Sys2Proof.Machine

/-! ## Invariants -/

/-- A running command's engine fields are in their ranges (10_state.md R41, R42, R47; 40_refine.md R118). -/
abbrev engineInRange (maxp : Nat) (e : Engine) : Prop :=
  1 ≤ e.n ∧ e.n ≤ maxp ∧ e.i < 5 * e.n ∧
  (e.op = .enc → e.grp.toNat < 2 ^ (e.i % 5)) ∧
  (e.op = .dec → e.vals.length = e.n)

/-- The invariant of the machine: legal parameters (00_scope.md R5); BUSY = 1 and DONE = 1 never hold at once (10_state.md R23);
while BUSY = 1, ERR = 0 (42_encode.md R143) and the engine is in range. -/
abbrev State.Inv (s : State) : Prop :=
  s.params.legal = true ∧
  ¬(s.status.busy = true ∧ s.status.done = true) ∧
  (s.status.busy = true → s.status.err = .none ∧ engineInRange s.params.maxp s.engine)

/-- A running ENCODE's engine is where the encode function is after E.I bits (42_encode.md R149, R150): its intervals, its group and
its staged characters are those of the latched coordinate, and the rest of E.BUF is 0x00. -/
def encodeOnTrack (e : Engine) : Prop :=
  inRange e.vlat e.vlon = true ∧
  e.box = boxAfter e.vlat e.vlon e.i ∧
  e.grp.toNat = groupNumber (encodeBit e.vlat e.vlon) (5 * (e.i / 5)) (e.i % 5) ∧
  e.buf.toList = encodeFn e.vlat e.vlon (e.i / 5) ++ List.replicate (16 - e.i / 5) 0#8

/-- A running DECODE's engine is where the bits of its values lead after E.I bits (43_decode.md R164). -/
def decodeOnTrack (e : Engine) : Prop := e.box = decodeBox (bitOfValues e.vals) e.i

/-- A running command computes the codec's function. -/
def State.OnTrack (s : State) : Prop :=
  s.Inv ∧ (s.status.busy = true →
    (s.engine.op = .enc → encodeOnTrack s.engine) ∧ (s.engine.op = .dec → decodeOnTrack s.engine))

/-! ## What the host can tell apart -/

/-- The engine fields a running command reads agree (10_state.md R48). -/
def engineAgrees (e f : Engine) : Prop :=
  e.op = f.op ∧ e.n = f.n ∧ e.i = f.i ∧ e.box = f.box ∧
  (e.op = .enc → e.vlat = f.vlat ∧ e.vlon = f.vlon ∧ e.grp = f.grp ∧ e.buf = f.buf) ∧
  (e.op = .dec → e.vals = f.vals)

/-- Two states no later behaviour can tell apart: everything but the engine's internal fields is equal, and while BUSY = 1 so are
the fields the running command reads (10_state.md R48, R50). -/
def State.Alike (s t : State) : Prop :=
  s.params = t.params ∧ s.status = t.status ∧ s.regs = t.regs ∧ s.pending = t.pending ∧ s.readLog = t.readLog ∧
  (s.status.busy = true → engineAgrees s.engine t.engine)

/-- Two outcomes are alike: both go on to states that are alike, or both stop for the same reason. -/
def outcomesAlike : Host.Outcome State Fault Refusal → Host.Outcome State Fault Refusal → Prop
  | .next s, .next t => s.Alike t
  | .fault f, .fault g => f = g
  | .refused r, .refused q => r = q
  | .next _, .fault _ => False
  | .next _, .refused _ => False
  | .fault _, .next _ => False
  | .fault _, .refused _ => False
  | .refused _, .next _ => False
  | .refused _, .fault _ => False

/-! ## Runs -/

/-- k steps of the machine, stopping at the first fault or refusal. -/
def runSteps : Nat → State → Host.Outcome State Fault Refusal
  | 0, s => .next s
  | k + 1, s =>
    match step s with
    | .next t => runSteps k t
    | .fault f => .fault f
    | .refused r => .refused r

/-- A host transaction or an engine slot: the events between a command's accept and its commit (20_memory.md R69). -/
def Event.plain : Event → Bool
  | .bus _ => true
  | .engine => true
  | .reset _ => false
  | .access _ _ _ => false
  | .wait _ => false

/-- An engine slot. -/
def Event.isEngine : Event → Bool
  | .engine => true
  | .bus _ => false
  | .reset _ => false
  | .access _ _ _ => false
  | .wait _ => false

/-- A host write that is dropped while BUSY = 1: one to CMD or to a RW register (44_control.md R181). -/
def Event.droppable : Event → Bool
  | .bus r => recD r && (accessOf (regAt (recIdx r)) == .wo || accessOf (regAt (recIdx r)) == .rw)
  | .engine => false
  | .reset _ => false
  | .access _ _ _ => false
  | .wait _ => false

/-- The event is the one transaction i of the host: its record decodes to i, or the platform maps its byte-addressed access to i
(30_encoding.md R81, 20_memory.md R62). -/
def Event.delivers (base : Nat) (i : Instr) : Event → Prop
  | .bus r => decodeBus r = i
  | .access addr bytes wdata => accessInstr base addr bytes wdata = .ok i
  | .engine => False
  | .reset _ => False
  | .wait _ => False

/-- The CMD write of a command, as an event. -/
def commandEvent (i : Instr) : Event := .bus (encode i).toRecord

/-- The engine's step, k times. -/
def engineSteps : Nat → State → State
  | 0, s => s
  | k + 1, s => engineSteps k (engineStep s)

end Sys2Proof.Machine
end

