-- ==== Sys2Proof/Certificates/Slice0/Obligations.lean ====
section
/-! DEFINITION. The statements about GHC, in the order of OBLIGATIONS.json. Each docstring names the rule it formalises. -/

open Sys2Proof Sys2Proof.Machine

/-! ## Encodings -/

/-- Every well-formed instruction is read back from its encoding, with every operand at every value (30_encoding.md R81, R85, R86). -/
def Obligations.DecodingAnEncodingGivesTheInstruction : Prop :=
  ∀ i : Instr, i.wellFormed = true → decode (encode i) = .ok i

/-- The other direction: what the decoder reads is well-formed, and its encoding is the word or record it was read from (a
read record whose unused DATA bits are not 0 excepted: that it decodes at all is the model's reading, log entry 6). -/
def Obligations.EncodingADecodedWordGivesTheWord : Prop :=
  ∀ (e : Encoding) (i : Instr), decode e = .ok i →
    i.wellFormed = true ∧
    ((∀ r, e = .bus r → recD r = false → recData r = 0#64) → encode i = e)

/-- 30_encoding.md R87: the formula of `valid`, its equivalence to the six match and mask patterns, that no two of them
overlap, and that exactly the valid words decode. -/
def Obligations.ValidWordsMatchExactlyOnePattern : Prop :=
  ∀ w : Word,
    (validWord w = true ↔
      w.extractLsb' 16 48 = 0#48 ∧ w.extractLsb' 4 4 = 0#4 ∧
        ((w.extractLsb' 0 4 ∈ [0x0#4, 0x1#4, 0x2#4, 0x3#4] ∧ w.extractLsb' 8 8 = 0#8)
          ∨ (w.extractLsb' 0 4 = 0x4#4 ∧ w.extractLsb' 13 3 = 0#3)
          ∨ w.extractLsb' 0 4 = 0x5#4)) ∧
    (validWord w = true ↔
      [(0x0#64, 0xFFFFFFFFFFFFFFFF#64), (0x1#64, 0xFFFFFFFFFFFFFFFF#64), (0x2#64, 0xFFFFFFFFFFFFFFFF#64),
        (0x3#64, 0xFFFFFFFFFFFFFFFF#64), (0x4#64, 0xFFFFFFFFFFFFE0FF#64), (0x5#64, 0xFFFFFFFFFFFF00FF#64)].countP
        (fun p => w &&& p.2 == p.1) = 1) ∧
    (validWord w = false ↔
      [(0x0#64, 0xFFFFFFFFFFFFFFFF#64), (0x1#64, 0xFFFFFFFFFFFFFFFF#64), (0x2#64, 0xFFFFFFFFFFFFFFFF#64),
        (0x3#64, 0xFFFFFFFFFFFFFFFF#64), (0x4#64, 0xFFFFFFFFFFFFE0FF#64), (0x5#64, 0xFFFFFFFFFFFF00FF#64)].countP
        (fun p => w &&& p.2 == p.1) = 0) ∧
    (validWord w = true ↔ ∃ i, decodeCmd w = .ok i)

/-- Words and records of spec/95_test_vectors.md and what they stand for. -/
def Obligations.SpecWordsDecodeAsListed : Prop :=
  decode (.cmd 0x0000000000000000#64) = .ok .nop ∧
  decode (.cmd 0x0000000000000001#64) = .ok .encode ∧
  decode (.cmd 0x0000000000000002#64) = .ok .decode ∧
  decode (.cmd 0x0000000000000003#64) = .ok .refine ∧
  decode (.cmd 0x0000000000001804#64) = .ok (.encchar 0x18#8) ∧
  decode (.cmd 0x0000000000007305#64) = .ok (.decchar 0x73#8) ∧
  decode (.bus 0x0A0000000000000000#70) = .ok (.rd 10#5) ∧
  decode (.bus 0x26000000000000000C#70) = .ok (.wr 6#5 12#64) ∧
  decode (.cmd 0x8000000000000001#64) = .error .nonzeroRsv1 ∧
  decode (.cmd 0x0000000000002004#64) = .error .unusedArgBit

/-- Delivered as the opcode table's bits, the very next step runs the decoded instruction, as the first or at any later time.
(How withFetchWord places it, and that the width selects the format, is the model's choice, log entries 1 and 17.) -/
def Obligations.FetchedTableWordRunsItsInstruction : Prop :=
  ∀ (s : State) (nbits w : Nat) (i : Instr), decodeTableWord nbits w = some i →
    step (s.withFetchWord nbits w) = exec i s

/-! ## Steps and events -/

/-- A step whose next event is a host transaction runs the instruction its record decodes to, with the event taken from the list
and nothing else changed; and where the record is a CMD write of a valid command word, that command. -/
def Obligations.StepRunsTheDecodedTransaction : Prop :=
  ∀ (s : State) (r : Record) (rest : List Event), s.pending = .bus r :: rest →
    step s = exec (decodeBus r) { s with pending := rest } ∧
    (∀ c, recD r = true → recIdx r = 1#5 → decodeCmd (recData r) = .ok c →
      step s = exec c { s with pending := rest })

/-- 44_control.md R187, 60_exceptions.md R204: at an engine slot the engine takes its step exactly when BUSY = 1; with no event
pending it still does, and an idle block holds every register (that an empty list goes on so is the model's choice, log entry 9). -/
def Obligations.EngineStepsExactlyWhileBusy : Prop :=
  (∀ (s : State) (rest : List Event), s.pending = .engine :: rest →
    (s.status.busy = true → s.engine.op = .enc → step s = .next (encodeStep { s with pending := rest })) ∧
    (s.status.busy = true → s.engine.op = .dec → step s = .next (decodeStep { s with pending := rest })) ∧
    (s.status.busy = false → step s = .next { s with pending := rest })) ∧
  (∀ s : State, s.pending = [] →
    (s.status.busy = true → s.engine.op = .enc → step s = .next (encodeStep s)) ∧
    (s.status.busy = true → s.engine.op = .dec → step s = .next (decodeStep s)) ∧
    (s.status.busy = false → step s = .next s))

/-- 20_memory.md R62: a host access of another width or alignment is refused and an 8-byte access at BASE + 8 * idx is the one
transaction on word idx. (That a whole word outside the window is a fault is the model's choice, log entry 12.) -/
def Obligations.ByteAccessesAreMappedOrRefused : Prop :=
  ∀ (s : State) (addr bytes : Nat) (wdata : Option Word) (rest : List Event),
    s.pending = .access addr bytes wdata :: rest →
    (bytes ≠ 8 ∨ ((addr : Int) - s.params.base) % 8 ≠ 0 → step s = .refused .notATransaction) ∧
    (∀ idx : Index, bytes = 8 → addr = s.params.base + 8 * idx.toNat →
      step s = match wdata with
        | none => exec (.rd idx) { s with pending := rest }
        | some v => exec (.wr idx v) { s with pending := rest }) ∧
    (bytes = 8 → (addr < s.params.base ∨ s.params.base + 256 ≤ addr) → ((addr : Int) - s.params.base) % 8 = 0 →
      step s = .fault .outsideWindow)

/-- 30_encoding.md R97: each turn of the WAIT loop is one BusRead of STATUS; while the value read shows BUSY = 1 the loop stays and
the engine steps its schedule names come before the next turn; when it shows BUSY = 0 the loop is over. (The schedule's end, one
engine step a turn, and that neither a reset nor another host comes between two turns are the model's choice, log entry 8.) -/
def Obligations.WaitReadsStatusUntilIdle : Prop :=
  ∀ (s : State) (gaps : List Nat) (rest : List Event), s.pending = .wait gaps :: rest →
    (s.status.busy = false →
      step s = .next { s with pending := rest, readLog := s.readLog ++ [statusWord s.status] }) ∧
    (s.status.busy = true → ∀ g gs, gaps = g :: gs →
      step s = .next { s with pending := List.replicate g .engine ++ .wait gs :: rest,
                              readLog := s.readLog ++ [statusWord s.status] }) ∧
    (s.status.busy = true → gaps = [] →
      step s = .next { s with pending := .engine :: .wait [] :: rest, readLog := s.readLog ++ [statusWord s.status] })

/-- A WAIT with no other event after it ends: under its schedule's end a running command's commit is reached, and the
last value read has BUSY = 0 (30_encoding.md R97, 44_control.md R188). (One engine step a turn, and a loop that nothing
breaks into, are the model's choice, log entry 8.) -/
def Obligations.WaitEndsAfterTheCommit : Prop :=
  ∀ (s : State) (rest : List Event), s.Inv → s.status.busy = true → s.pending = .wait [] :: rest →
    ∃ t, runSteps (2 * (5 * s.engine.n - s.engine.i) + 1) s = .next t ∧
      t.pending = rest ∧ t.status = ⟨false, true, .none, s.status.ovr⟩ ∧
      t.readLog = s.readLog ++ List.replicate (5 * s.engine.n - s.engine.i) (statusWord s.status) ++ [statusWord t.status]

/-! ## Reset -/

/-- 10_state.md R49, 70_reset_and_hazards.md R211: STATUS and every stored register are 0 after reset, CONFIG holds MAXP (12, the
default of 00_scope.md R5), CMD and the reserved words read 0. -/
def Obligations.ResetLeavesTheListedValues : Prop :=
  statusWord State.reset.status = 0#64 ∧
  (∀ idx : Index, idx ≠ 0#5 → readReg State.reset (regAt idx) = 0#64) ∧
  readReg State.reset (regAt 0#5) = 0xC#64

/-- 70_reset_and_hazards.md R210: reset from any state, a running command included: every host-visible register but CONFIG takes 0 and
STATUS takes 0, CONFIG keeps MAXP, and the transactions that arrive meanwhile have no effect. (One event for the whole of it, and the host's read log
kept, is the model's choice, log entries 7 and 11.) -/
def Obligations.ResetEventClearsEveryRegister : Prop :=
  ∀ (s : State) (arriving : List Record) (rest : List Event), s.pending = .reset arriving :: rest →
    ∃ t, step s = .next t ∧ t.status = ⟨false, false, .none, false⟩ ∧
      t.regs = ⟨0, 0, 0, 0, 0, 0, 0, 0, 0, 0, 0, 0, 0, 0, 0, 0⟩ ∧
      t.params = s.params ∧ t.pending = rest ∧ t.readLog = s.readLog

/-! ## Invariants -/

/-- The reset state meets the invariant. -/
def Obligations.ResetMeetsTheInvariant : Prop := State.reset.Inv ∧ State.reset.OnTrack

/-- From every state that meets it, a step keeps the invariant: legal MAXP, never BUSY and DONE together (10_state.md R23), ERR = 0 while
BUSY, and a running engine's fields in range (R41, R42, R47). -/
def Obligations.EveryStepKeepsTheInvariant : Prop :=
  ∀ s t : State, s.Inv → step s = .next t → t.Inv

/-- From every state whose running command is on track, a step leaves it on track: at every moment between accept and commit the
engine's intervals, group, staged characters and bits are those of the codec's function (42_encode.md R149, R150; 40_refine.md R118). -/
def Obligations.EveryStepKeepsTheEngineOnTrack : Prop :=
  ∀ s t : State, s.OnTrack → step s = .next t → t.OnTrack

/-- 10_state.md R20: CONFIG[7:0] = MAXP, CONFIG[63:8] = 0, and no step changes it, reset included. -/
def Obligations.ConfigHoldsMaxpForever : Prop :=
  ∀ s t : State, s.params.legal = true → step s = .next t →
    t.params = s.params ∧
    (readReg t (regAt 0#5)).toNat = s.params.maxp ∧
    (readReg t (regAt 0#5)).extractLsb' 8 56 = 0#56

/-- No instruction stops the machine, whatever its operands and the state (60_exceptions.md R198, R200; 30_encoding.md R88), and none
touches the parameters or the events to come; only RD adds to the read log (log entries 1 and 7). -/
def Obligations.EveryInstructionAnswersANextState : Prop :=
  ∀ (i : Instr) (s : State), ∃ t, exec i s = .next t ∧ t.params = s.params ∧ t.pending = s.pending ∧
    ((∀ idx, i ≠ .rd idx) → t.readLog = s.readLog)

/-- 10_state.md R23: a step sets BUSY only by a CMD write, accepted while idle, of an ENCODE or DECODE with valid operands; it clears
it only at a reset or at the commit of the running command; and BUSY = 1 and DONE = 1 never come to hold at once. -/
def Obligations.BusyIsSetByAcceptAndClearedByCommit : Prop :=
  ∀ s t : State, step s = .next t →
    (s.status.busy = false → t.status.busy = true →
      ∃ e rest w, s.pending = e :: rest ∧ e.delivers s.params.base (.wr 1#5 w) ∧
        step s = exec (.wr 1#5 w) { s with pending := rest } ∧
        ((decodeCmd w = .ok .encode ∧ inRange s.regs.lat s.regs.lon = true ∧
            1 ≤ s.regs.prec.toInt ∧ s.regs.prec.toInt ≤ s.params.maxp) ∨
         (decodeCmd w = .ok .decode ∧ s.regs.hlen.toNat ≠ 0 ∧ s.regs.hlen.toNat ≤ s.params.maxp ∧
            ∀ k, k < s.regs.hlen.toNat → ∃ v, valOf (hashByte s.regs k) = some v))) ∧
    (s.status.busy = true → t.status.busy = false →
      (∃ arriving rest, s.pending = .reset arriving :: rest) ∨
      (s.engine.i + 1 = 5 * s.engine.n ∧ t.status = ⟨false, true, .none, s.status.ovr⟩ ∧
        (s.pending = [] ∨ ∃ rest, s.pending = .engine :: rest))) ∧
    (¬(s.status.busy = true ∧ s.status.done = true) → ¬(t.status.busy = true ∧ t.status.done = true))

/-- 10_state.md R26: OVR becomes 1 only in a step whose event is a host write to CMD or a RW register while BUSY = 1, and every such
step sets it; it becomes 0 only in a step whose event is a CMD write while BUSY = 0 (an accept) or a reset, and every such step
clears it. -/
def Obligations.OverrunFlagFollowsDroppedWrites : Prop :=
  ∀ s t : State, step s = .next t →
    (s.status.ovr = false → t.status.ovr = true →
      s.status.busy = true ∧ ∃ e rest idx v, s.pending = e :: rest ∧ e.delivers s.params.base (.wr idx v) ∧
        (accessOf (regAt idx) = .wo ∨ accessOf (regAt idx) = .rw)) ∧
    (s.status.ovr = true → t.status.ovr = false →
      (∃ arriving rest, s.pending = .reset arriving :: rest) ∨
      (s.status.busy = false ∧ ∃ e rest w, s.pending = e :: rest ∧ e.delivers s.params.base (.wr 1#5 w))) ∧
    (∀ e rest idx v, s.pending = e :: rest → e.delivers s.params.base (.wr idx v) →
      (s.status.busy = true → accessOf (regAt idx) = .wo ∨ accessOf (regAt idx) = .rw → t.status.ovr = true) ∧
      (s.status.busy = false → idx = 1#5 → t.status.ovr = false)) ∧
    (∀ arriving rest, s.pending = .reset arriving :: rest → t.status.ovr = false)

/-! ## Bus transactions -/

/-- 20_memory.md R60: a BusRead of every index returns the register's content (STATUS its fields, CMD and the reserved words 0) and
changes nothing of the block. -/
def Obligations.BusReadReturnsTheWordOfItsIndex : Prop :=
  ∀ (s : State) (idx : Index),
    exec (.rd idx) s = .next { s with readLog := s.readLog ++ [
      if idx = 0#5 then (BitVec.ofNat 8 s.params.maxp).setWidth 64
      else if idx = 1#5 then 0#64
      else if idx = 2#5 then statusWord s.status
      else if idx = 3#5 then s.regs.result
      else if idx = 4#5 then s.regs.lat
      else if idx = 5#5 then s.regs.lon
      else if idx = 6#5 then s.regs.prec
      else if idx = 7#5 then s.regs.hlen
      else if idx = 8#5 then s.regs.hash0
      else if idx = 9#5 then s.regs.hash1
      else if idx = 10#5 then s.regs.latmin
      else if idx = 11#5 then s.regs.latmax
      else if idx = 12#5 then s.regs.lonmin
      else if idx = 13#5 then s.regs.lonmax
      else if idx = 14#5 then s.regs.clat
      else if idx = 15#5 then s.regs.clon
      else if idx = 16#5 then s.regs.rval
      else if idx = 17#5 then s.regs.rlow
      else if idx = 18#5 then s.regs.rhigh
      else 0#64] }

/-- 10_state.md R22 and 60_exceptions.md R190: the bits of STATUS and the error codes. -/
def Obligations.StatusWordHasTheListedFields : Prop :=
  ∀ f : Status,
    (statusWord f).getLsbD 0 = f.busy ∧
    (statusWord f).getLsbD 1 = f.done ∧
    (statusWord f).extractLsb' 2 2 = 0#2 ∧
    (statusWord f).extractLsb' 4 4 = (match f.err with
      | .none => 0#4 | .outOfRange => 1#4 | .invalidPrecision => 2#4
      | .invalidCharacter => 3#4 | .emptyInput => 4#4 | .invalidCommand => 5#4) ∧
    (statusWord f).getLsbD 8 = f.ovr ∧
    (statusWord f).extractLsb' 9 55 = 0#55

/-- 20_memory.md R61, 10_state.md R36: while BUSY = 0 a BusWrite of a RW register stores the whole word in that register and changes
nothing else. -/
def Obligations.IdleBusWriteStoresTheWord : Prop :=
  ∀ (s : State) (v : Word), s.status.busy = false →
    exec (.wr 4#5 v) s = .next { s with regs := { s.regs with lat := v } } ∧
    exec (.wr 5#5 v) s = .next { s with regs := { s.regs with lon := v } } ∧
    exec (.wr 6#5 v) s = .next { s with regs := { s.regs with prec := v } } ∧
    exec (.wr 7#5 v) s = .next { s with regs := { s.regs with hlen := v } } ∧
    exec (.wr 8#5 v) s = .next { s with regs := { s.regs with hash0 := v } } ∧
    exec (.wr 9#5 v) s = .next { s with regs := { s.regs with hash1 := v } } ∧
    exec (.wr 16#5 v) s = .next { s with regs := { s.regs with rval := v } } ∧
    exec (.wr 17#5 v) s = .next { s with regs := { s.regs with rlow := v } } ∧
    exec (.wr 18#5 v) s = .next { s with regs := { s.regs with rhigh := v } }

/-- 10_state.md R35, and the RO half of R36: a BusWrite of a RO register or a reserved word changes nothing and does not set OVR,
whatever BUSY is; a BusRead of a reserved word returns 0. -/
def Obligations.ReadOnlyAndReservedWritesAreIgnored : Prop :=
  ∀ (s : State) (idx : Index) (v : Word),
    ((idx = 0#5 ∨ idx = 2#5 ∨ idx = 3#5 ∨ (10#5 ≤ idx ∧ idx ≤ 15#5) ∨ 19#5 ≤ idx) →
      exec (.wr idx v) s = .next s) ∧
    (19#5 ≤ idx → exec (.rd idx) s = .next { s with readLog := s.readLog ++ [0#64] })

/-- 44_control.md R181: while BUSY = 1 a BusWrite of CMD or of a RW register, and so every command, has one effect: OVR <- 1. -/
def Obligations.BusyWritesAreDropped : Prop :=
  ∀ s : State, s.status.busy = true →
    (∀ (idx : Index) (v : Word),
      (idx = 1#5 ∨ (4#5 ≤ idx ∧ idx ≤ 9#5) ∨ (16#5 ≤ idx ∧ idx ≤ 18#5)) →
      exec (.wr idx v) s = .next { s with status := { s.status with ovr := true } }) ∧
    (∀ c : Instr, c.isCommand = true → exec c s = .next { s with status := { s.status with ovr := true } })

/-- 10_state.md R39: no register aliases another: after an idle BusWrite of a RW register, a BusRead of it returns the word written
and a BusRead of any other index returns what it did before. -/
def Obligations.WrittenRegisterAliasesNoOther : Prop :=
  ∀ (s : State) (idx other : Index) (v : Word), s.status.busy = false → accessOf (regAt idx) = .rw →
    ∃ t, exec (.wr idx v) s = .next t ∧ readReg t (regAt idx) = v ∧
      (other ≠ idx → readReg t (regAt other) = readReg s (regAt other))

/-- 20_memory.md R73, 44_control.md R180: a BusWrite to CMD of a word that decodes to a command is that command, in every state. -/
def Obligations.CommandWriteRunsTheCommand : Prop :=
  ∀ (s : State) (w : Word) (c : Instr), decodeCmd w = .ok c → exec (.wr 1#5 w) s = exec c s

/-- 44_control.md R185: an illegal word written to CMD while BUSY = 0 finishes with InvalidCommand and changes only STATUS, which
then reads 0x52; and the rule's corner cases. (That the engine's fields stay as they were too, where
93_implementation_defined.md I9 leaves them any value after a failed accept, is the model's choice, log entry 21.) -/
def Obligations.IllegalWordFinishesWithInvalidCommand : Prop :=
  (∀ (s : State) (w : Word), s.status.busy = false → validWord w = false →
    exec (.wr 1#5 w) s = .next { s with status := ⟨false, true, .invalidCommand, false⟩ }) ∧
  statusWord ⟨false, true, .invalidCommand, false⟩ = 0x52#64 ∧
  (∀ w : Word, (6#4 ≤ cmdOp w ∨ cmdRsv0 w ≠ 0#4 ∨ cmdRsv1 w ≠ 0#48) → validWord w = false) ∧
  validWord 0x6#64 = false ∧ validWord 0x8000000000000001#64 = false ∧ validWord 0x0101#64 = false ∧
  validWord 0x2004#64 = false ∧
  (∀ s : State, s.status.busy = false →
    exec (.wr 1#5 0xFF05#64) s = .next { s with status := ⟨false, true, .invalidCharacter, false⟩ })

/-! ## Immediate commands -/

/-- 44_control.md R184: NOP's word is 0; accepted, it does nothing except finish: a stale ERR and OVR are cleared and STATUS reads 0x2;
written while BUSY = 1 it is dropped. -/
def Obligations.NopOnlyFinishes : Prop :=
  encode .nop = .cmd 0x0000000000000000#64 ∧
  (∀ s : State, s.status.busy = false →
    exec .nop s = .next { s with status := ⟨false, true, .none, false⟩ }) ∧
  statusWord ⟨false, true, .none, false⟩ = 0x2#64 ∧
  (∀ s : State, s.status.busy = true →
    exec .nop s = .next { s with status := { s.status with ovr := true } })

/-- 30_encoding.md R92, 41_base32.md R131, R132: the encoder's table; VAL is the inverse of ALPH, exactly 32 codes have a value,
and the excluded letters, the uppercase letters and 0x00 have none. -/
def Obligations.CharacterValuesInvertTheAlphabet : Prop :=
  (List.range 32).map (fun v => (alph (BitVec.ofNat 5 v)).toNat) =
    [0x30, 0x31, 0x32, 0x33, 0x34, 0x35, 0x36, 0x37, 0x38, 0x39, 0x62, 0x63, 0x64, 0x65, 0x66, 0x67] ++
    [0x68, 0x6A, 0x6B, 0x6D, 0x6E, 0x70, 0x71, 0x72, 0x73, 0x74, 0x75, 0x76, 0x77, 0x78, 0x79, 0x7A] ∧
  (∀ (c : Byte) (v : Quintet), valOf c = some v ↔ alph v = c) ∧
  ((List.range 256).filter fun c => (valOf (BitVec.ofNat 8 c)).isSome).length = 32 ∧
  (∀ c : Byte, (0x41#8 ≤ c ∧ c ≤ 0x5A#8) ∨ c ∈ [0x61#8, 0x69#8, 0x6C#8, 0x6F#8, 0x00#8] → valOf c = none)

/-- 41_base32.md R133: ENCCHAR writes zext_64(ALPH[v]) to RESULT and finishes; nothing else changes. An argument with a bit of
ARG[7:5] set is not ENCCHAR: it finishes with InvalidCommand and RESULT is unchanged. With the rule's encoding, corner cases and
example. (What exec does with the ill-formed term that carries such an argument is DEDUCED, log entry 15. That the engine's fields stay
as they were on that failed accept, where 93_implementation_defined.md I9 leaves them any value, is the model's choice, log entry 21.) -/
def Obligations.EnccharLooksUpTheCharacter : Prop :=
  (∀ (s : State) (arg : Byte), s.status.busy = false →
    (arg.extractLsb' 5 3 = 0#3 →
      exec (.encchar arg) s = .next { s with
        status := ⟨false, true, .none, false⟩,
        regs := { s.regs with result := (alph (arg.setWidth 5)).setWidth 64 } }) ∧
    (arg.extractLsb' 5 3 ≠ 0#3 →
      exec (.encchar arg) s = .next { s with status := ⟨false, true, .invalidCommand, false⟩ })) ∧
  (∀ v : Quintet, decodeCmd (0x04#64 ||| (v.setWidth 64 <<< 8)) = .ok (.encchar (v.setWidth 8))) ∧
  [0#5, 9#5, 10#5, 31#5, 16#5, 17#5].map alph = [0x30#8, 0x39#8, 0x62#8, 0x7A#8, 0x68#8, 0x6A#8] ∧
  (∀ s : State, s.status.busy = false →
    exec (.wr 1#5 0x0000000000001804#64) s = .next { s with
      status := ⟨false, true, .none, false⟩, regs := { s.regs with result := 0x73#64 } })

/-- 41_base32.md R134: DECCHAR writes zext_64(VAL(c)) to RESULT and finishes, or finishes with InvalidCharacter and leaves RESULT as it
was; nothing else changes. With the rule's encoding, corner cases and examples. (That the engine's fields stay as they were too, where
93_implementation_defined.md I9 leaves them any value after a failed accept, is the model's choice, log entry 21.) -/
def Obligations.DeccharLooksUpTheValue : Prop :=
  (∀ (s : State) (c : Byte), s.status.busy = false →
    (∀ v, valOf c = some v →
      exec (.decchar c) s = .next { s with
        status := ⟨false, true, .none, false⟩, regs := { s.regs with result := v.setWidth 64 } }) ∧
    (valOf c = none →
      exec (.decchar c) s = .next { s with status := ⟨false, true, .invalidCharacter, false⟩ })) ∧
  (∀ c : Byte, decodeCmd (0x05#64 ||| (c.setWidth 64 <<< 8)) = .ok (.decchar c)) ∧
  [0x30#8, 0x7A#8, 0x62#8].map valOf = [some 0#5, some 31#5, some 10#5] ∧
  (∀ c ∈ [0x61#8, 0x69#8, 0x6C#8, 0x6F#8, 0x53#8, 0x00#8, 0x2F#8, 0x3A#8, 0x7B#8, 0xFF#8], valOf c = none) ∧
  (∀ s : State, s.status.busy = false →
    exec (.wr 1#5 0x0000000000007305#64) s = .next { s with
      status := ⟨false, true, .none, false⟩, regs := { s.regs with result := 0x18#64 } } ∧
    exec (.wr 1#5 0x0000000000006105#64) s = .next { s with status := ⟨false, true, .invalidCharacter, false⟩ }) ∧
  statusWord ⟨false, true, .invalidCharacter, false⟩ = 0x32#64

/-- 40_refine.md R119, R120: REFINE writes RLOW, RHIGH, RESULT and STATUS from RVAL, RLOW and RHIGH, and nothing else: the upper half
and 1 when RVAL >= mid, the lower half and 0 otherwise. -/
def Obligations.RefineBisectsTheHostsInterval : Prop :=
  ∀ s : State, s.status.busy = false →
    exec .refine s = .next { s with
      status := ⟨false, true, .none, false⟩,
      regs := if ge s.regs.rval (mid s.regs.rlow s.regs.rhigh) = true
              then { s.regs with rlow := mid s.regs.rlow s.regs.rhigh, result := 1#64 }
              else { s.regs with rhigh := mid s.regs.rlow s.regs.rhigh, result := 0#64 } }

/-- 44_control.md R183, 60_exceptions.md R192, R196: a command that finishes with an error, written to CMD as any word or run as any
command, changes STATUS and nothing else. (That the engine's fields stay as they were too, where
93_implementation_defined.md I9 leaves them any value after a failed accept, is the model's choice, log entry 21.) -/
def Obligations.FailedCommandChangesOnlyStatus : Prop :=
  ∀ (s t : State) (i : Instr), s.status.busy = false → (i.isCommand = true ∨ ∃ w, i = .wr 1#5 w) →
    exec i s = .next t → t.status.err ≠ .none →
    t = { s with status := ⟨false, true, t.status.err, false⟩ }

/-- 60_exceptions.md R191: which error codes each command can finish (or start) with. -/
def Obligations.CommandsFinishWithTheirOwnErrors : Prop :=
  ∀ (s t : State) (i : Instr), s.status.busy = false → i.wellFormed = true → exec i s = .next t →
    match i with
    | .nop => t.status.err = .none
    | .encode => t.status.err ∈ [ErrorCode.none, .outOfRange, .invalidPrecision]
    | .decode => t.status.err ∈ [ErrorCode.none, .invalidPrecision, .invalidCharacter, .emptyInput]
    | .refine => t.status.err = .none
    | .encchar _ => t.status.err = .none
    | .decchar _ => t.status.err ∈ [ErrorCode.none, .invalidCharacter]
    | .rd _ => t.status.err = s.status.err
    | .wr idx w => (idx = 1#5 → validWord w = false → t.status.err = .invalidCommand) ∧
        (idx ≠ 1#5 → t.status.err = s.status.err)

/-! ## The bisector -/

/-- 40_refine.md R112: a bound passed through keeps its word, the computed bound is the mid-point, a NaN mid-point is CNAN, and a
NaN bound gives (0, lo, CNAN). -/
def Obligations.RefinePassesBoundsThrough : Prop :=
  ∀ v lo hi : Word,
    ((Machine.refine v lo hi).1 = true → (Machine.refine v lo hi).2 = (mid lo hi, hi)) ∧
    ((Machine.refine v lo hi).1 = false → (Machine.refine v lo hi).2 = (lo, mid lo hi)) ∧
    (isNaN (mid lo hi) = true → mid lo hi = 0x7FF8000000000000#64) ∧
    (isNaN lo = true ∨ isNaN hi = true → Machine.refine v lo hi = (false, lo, 0x7FF8000000000000#64))

/-- 00_scope.md R10: `x +f y` is the binary64 value nearest to the exact sum, ties to the even significand; it is infinite exactly
from 2^1024 - 2^970 on; an exact zero sum is +0.0 unless both operands are -0.0. Values count units of 2^-1074. (PRESUMED, log entry 13.) -/
def Obligations.SumIsRoundedToNearestEven : Prop :=
  ∀ x y : Word, isFinite x = true → isFinite y = true →
    (isFinite (add x y) = true →
      ∀ z : Word, isFinite z = true →
        (value x + value y - value (add x y)).natAbs ≤ (value x + value y - value z).natAbs ∧
        (value z ≠ value (add x y) →
          (value x + value y - value (add x y)).natAbs = (value x + value y - value z).natAbs →
          fracField (add x y) % 2 = 0)) ∧
    (isFinite (add x y) = true ↔ (value x + value y).natAbs < 2 ^ 2098 - 2 ^ 2044) ∧
    isNaN (add x y) = false ∧
    (value x + value y < 0 → signBit (add x y) = true) ∧
    (0 < value x + value y → signBit (add x y) = false) ∧
    (value x + value y = 0 → signBit (add x y) = (signBit x && signBit y))

/-- 00_scope.md R10: `x /f 2` of a finite x is the finite binary64 value nearest to the exact half, ties to the even significand, with
the sign of x. (PRESUMED, log entry 13.) -/
def Obligations.HalfIsRoundedToNearestEven : Prop :=
  ∀ x : Word, isFinite x = true →
    isFinite (half x) = true ∧ signBit (half x) = signBit x ∧
    ∀ z : Word, isFinite z = true →
      (value x - 2 * value (half x)).natAbs ≤ (value x - 2 * value z).natAbs ∧
      (value z ≠ value (half x) →
        (value x - 2 * value (half x)).natAbs = (value x - 2 * value z).natAbs → fracField (half x) % 2 = 0)

/-- 00_scope.md R10, 40_refine.md R110: the cases of `+f` and `/f 2` that are not finite, and the ordered comparison `>=f`: of a NaN,
of finite values (-0.0 and +0.0 have one value) and of infinities. (PRESUMED, log entry 13.) -/
def Obligations.InfinitiesAndNaNsFollowTheRules : Prop :=
  ∀ x y : Word,
    (isNaN x = true ∨ isNaN y = true → add x y = 0x7FF8000000000000#64 ∧ ge x y = false) ∧
    (isInf x = true → isInf y = true → signBit x ≠ signBit y → add x y = 0x7FF8000000000000#64) ∧
    (isInf x = true → isInf y = true → signBit x = signBit y → add x y = x) ∧
    (isInf x = true → isFinite y = true → add x y = x ∧ add y x = x) ∧
    (isNaN x = true → half x = 0x7FF8000000000000#64) ∧
    (isInf x = true → half x = x) ∧
    (isFinite x = true → isFinite y = true → (ge x y = true ↔ value y ≤ value x)) ∧
    (isNaN x = false → isNaN y = false →
      ge 0x7FF0000000000000#64 y = true ∧
      ge x 0xFFF0000000000000#64 = true ∧
      (ge x 0x7FF0000000000000#64 = true ↔ x = 0x7FF0000000000000#64) ∧
      (ge 0xFFF0000000000000#64 y = true ↔ y = 0xFFF0000000000000#64))

/-- 40_refine.md R115: bisection of an interval whose mid-point is exact keeps the value inside, halves the interval, takes
the upper half exactly when the bit is 1, and meets the upper bound only for v = hi. -/
def Obligations.ExactBisectionKeepsTheValueInside : Prop :=
  ∀ v lo hi : Word, isFinite v = true → isFinite lo = true → isFinite hi = true →
    value lo < value hi → 2 * value (mid lo hi) = value lo + value hi → isFinite (mid lo hi) = true →
    value lo ≤ value v → value v ≤ value hi →
    let o := Machine.refine v lo hi
    value o.2.1 ≤ value v ∧ value v ≤ value o.2.2 ∧
    2 * (value o.2.2 - value o.2.1) = value hi - value lo ∧
    (o.1 = true ↔ value o.2.2 = value hi ∧ 2 * value o.2.1 = value lo + value hi) ∧
    (value v < value hi → value v < value o.2.2)

/-! ## ENCODE -/

/-- 42_encode.md R141: the range check holds exactly for finite coordinates in [-90, 90] and [-180, 180], both ends included. -/
def Obligations.RangeCheckAdmitsTheLegalCoordinates : Prop :=
  ∀ lat lon : Word, inRange lat lon = true ↔
    isFinite lat = true ∧ isFinite lon = true ∧
    -(90 * 2 ^ 1074) ≤ value lat ∧ value lat ≤ 90 * 2 ^ 1074 ∧
    -(180 * 2 ^ 1074) ≤ value lon ∧ value lon ≤ 180 * 2 ^ 1074

/-- 42_encode.md R143: an accepted ENCODE with good operands sets BUSY and loads the engine with the precision, the coordinate and
the full ranges; no other register changes. -/
def Obligations.EncodeAcceptLoadsTheEngine : Prop :=
  ∀ s : State, s.status.busy = false → inRange s.regs.lat s.regs.lon = true →
    1 ≤ s.regs.prec.toInt → s.regs.prec.toInt ≤ s.params.maxp →
    exec .encode s = .next { s with
      status := ⟨true, false, .none, false⟩,
      engine := { s.engine with
        op := .enc, n := s.regs.prec.toInt.toNat, i := 0, grp := 0#5, buf := Vector.replicate 16 0#8,
        vlat := s.regs.lat, vlon := s.regs.lon,
        box := ⟨0xC066800000000000#64, 0x4066800000000000#64, 0xC056800000000000#64, 0x4056800000000000#64⟩ } }

/-- 42_encode.md R141, R142 and the order of 60_exceptions.md R193: an ENCODE out of range finishes with OutOfRange whatever PREC is; one
in range with PREC < 1 or PREC > MAXP finishes with InvalidPrecision; each changes only STATUS. (That the engine's fields stay as they were too, where
93_implementation_defined.md I9 leaves them any value after a failed accept, is the model's choice, log entry 21.) -/
def Obligations.EncodeRejectsBadOperandsInOrder : Prop :=
  ∀ s : State, s.status.busy = false →
    (inRange s.regs.lat s.regs.lon = false →
      exec .encode s = .next { s with status := ⟨false, true, .outOfRange, false⟩ }) ∧
    (inRange s.regs.lat s.regs.lon = true → (s.regs.prec.toInt < 1 ∨ (s.params.maxp : Int) < s.regs.prec.toInt) →
      exec .encode s = .next { s with status := ⟨false, true, .invalidPrecision, false⟩ })

/-- 42_encode.md R144, R145, 40_refine.md R116, R118: what an encode step does to the engine: longitude for even E.I and latitude
for odd, the bit into the group, every fifth step a character into E.BUF and the group back to 0, E.I up by one; and a step that is
not the last changes nothing else. (That a character whose index lies past E.BUF is dropped, in states the invariant rules out, is the
model's choice, log entry 16; what the engine's fields hold after the last step, which commits, is the model's choice too, log entry 21.) -/
def Obligations.EncodeStepProducesOneBit : Prop :=
  ∀ s : State, s.status.busy = true → s.engine.op = .enc →
    let e := s.engine
    let onLon := e.i % 2 = 0
    let m := if onLon then mid e.box.lonlo e.box.lonhi else mid e.box.latlo e.box.lathi
    let b := if onLon then ge e.vlon m else ge e.vlat m
    let g : Quintet := (e.grp <<< 1) ||| (if b then 1#5 else 0#5)
    (engineStep s).engine = { e with
      i := e.i + 1,
      box := if onLon then (if b then { e.box with lonlo := m } else { e.box with lonhi := m })
             else (if b then { e.box with latlo := m } else { e.box with lathi := m }),
      grp := if e.i % 5 = 4 then 0#5 else g,
      buf := if e.i % 5 = 4 then e.buf.setIfInBounds (e.i / 5) (alph g) else e.buf } ∧
    (e.i + 1 ≠ 5 * e.n → engineStep s = { s with engine := (engineStep s).engine })

/-- 42_encode.md R147: the last encode step also commits: HB(k) <- E.BUF[k] for k in 0..15, HLEN <- E.N, BUSY <- 0, DONE <- 1, ERR <- 0,
OVR kept; no other register changes. (The staged characters are read here from the engine as the step leaves it: that E.BUF still holds them
after the commit is the model's choice, log entry 21.) -/
def Obligations.EncodeCommitWritesTheHashBuffer : Prop :=
  ∀ s : State, s.status.busy = true → s.engine.op = .enc → s.engine.i + 1 = 5 * s.engine.n →
    (engineStep s).status = ⟨false, true, .none, s.status.ovr⟩ ∧
    (engineStep s).regs = { s.regs with
      hash0 := (engineStep s).regs.hash0, hash1 := (engineStep s).regs.hash1, hlen := BitVec.ofNat 64 s.engine.n } ∧
    (∀ k : Fin 16, hashByte (engineStep s).regs k = (engineStep s).engine.buf[k]) ∧
    (engineStep s).params = s.params ∧ (engineStep s).pending = s.pending ∧ (engineStep s).readLog = s.readLog

/-- 42_encode.md R150 with R146: from any idle state with good operands, whatever host transactions come between the engine's steps,
the 5p-th step after the accept commits encodeFn(lat, lon, p), zero-filled, and HLEN = p; every other register is as before the command,
and OVR says whether a host write was dropped. (es holds bus records and engine slots. A mapped byte access is such a bus transaction by
ByteAccessesAreMappedOrRefused, and a WAIT is reads of STATUS and engine steps by WaitReadsStatusUntilIdle.) -/
def Obligations.EncodeResultIsTheFunctionUnderEveryInterleaving : Prop :=
  ∀ (s : State) (es rest : List Event) (p : Nat),
    s.Inv → s.status.busy = false → inRange s.regs.lat s.regs.lon = true →
    s.regs.prec.toInt = (p : Int) → 1 ≤ p → p ≤ s.params.maxp →
    es.all Event.plain = true → es.countP Event.isEngine + 1 = 5 * p →
    ∃ t, runSteps (es.length + 2)
        ({ s with pending := commandEvent .encode :: (es ++ .engine :: rest) } : State) = .next t ∧
      t.pending = rest ∧ t.params = s.params ∧
      t.status = ⟨false, true, .none, es.any Event.droppable⟩ ∧
      t.regs = { s.regs with
        hash0 := packHash0 (encodeFn s.regs.lat s.regs.lon p),
        hash1 := packHash1 (encodeFn s.regs.lat s.regs.lon p),
        hlen := BitVec.ofNat 64 p } ∧
      ∀ k, k < 16 → hashByte t.regs k = (encodeFn s.regs.lat s.regs.lon p).getD k 0#8

/-- 42_encode.md R151: prefix monotonicity. -/
def Obligations.LowerPrecisionIsAPrefix : Prop :=
  ∀ (lat lon : Word) (p1 p2 : Nat), inRange lat lon = true → 1 ≤ p1 → p1 < p2 →
    encodeFn lat lon p1 = (encodeFn lat lon p2).take p1

/-- 41_base32.md R135: every character the encode function gives is in the alphabet, and there are n of them. -/
def Obligations.EncodedCharactersAreInTheAlphabet : Prop :=
  ∀ (lat lon : Word) (n : Nat), (encodeFn lat lon n).length = n ∧
    ∀ c ∈ encodeFn lat lon n, ∃ v : Quintet, alph v = c ∧ valOf c = some v

/-- 42_encode.md R152: the coordinate lies in the closed intervals after any number of the steps of a valid ENCODE, and equals an upper
bound only when it is 90 or 180. -/
def Obligations.EncoderIntervalsContainTheCoordinate : Prop :=
  ∀ (lat lon : Word) (k : Nat), inRange lat lon = true → k ≤ 80 →
    value (boxAfter lat lon k).latlo ≤ value lat ∧ value lat ≤ value (boxAfter lat lon k).lathi ∧
    value (boxAfter lat lon k).lonlo ≤ value lon ∧ value lon ≤ value (boxAfter lat lon k).lonhi ∧
    (value lat = value (boxAfter lat lon k).lathi → value lat = 90 * 2 ^ 1074) ∧
    (value lon = value (boxAfter lat lon k).lonhi → value lon = 180 * 2 ^ 1074)

/-! ## DECODE -/

/-- 43_decode.md R163: an accepted DECODE with a good string sets BUSY and loads the engine with the length, the characters' values
and the full ranges; no other register changes. -/
def Obligations.DecodeAcceptLoadsTheEngine : Prop :=
  ∀ s : State, s.status.busy = false → s.regs.hlen.toNat ≠ 0 → s.regs.hlen.toNat ≤ s.params.maxp →
    (∀ k, k < s.regs.hlen.toNat → ∃ v, valOf (hashByte s.regs k) = some v) →
    ∃ vals : List Quintet, vals.length = s.regs.hlen.toNat ∧
      (∀ k, k < s.regs.hlen.toNat → valOf (hashByte s.regs k) = vals[k]?) ∧
      exec .decode s = .next { s with
        status := ⟨true, false, .none, false⟩,
        engine := { s.engine with
          op := .dec, n := s.regs.hlen.toNat, i := 0, vals := vals,
          box := ⟨0xC066800000000000#64, 0x4066800000000000#64, 0xC056800000000000#64, 0x4056800000000000#64⟩ } }

/-- 43_decode.md R161, R162 in the order of 60_exceptions.md R193: HLEN = 0 is EmptyInput, HLEN > MAXP is InvalidPrecision, both without
a look at the characters; then a byte of HB(0) to HB(n-1) outside the alphabet is InvalidCharacter; each changes only STATUS. Where
all of them are in the alphabet the DECODE starts, whatever the bytes from HB(n) on. (That the engine's fields stay as they were too, where
93_implementation_defined.md I9 leaves them any value after a failed accept, is the model's choice, log entry 21.) -/
def Obligations.DecodeRejectsBadOperandsInOrder : Prop :=
  ∀ s : State, s.status.busy = false →
    (s.regs.hlen.toNat = 0 → exec .decode s = .next { s with status := ⟨false, true, .emptyInput, false⟩ }) ∧
    (s.params.maxp < s.regs.hlen.toNat →
      exec .decode s = .next { s with status := ⟨false, true, .invalidPrecision, false⟩ }) ∧
    (s.regs.hlen.toNat ≠ 0 → s.regs.hlen.toNat ≤ s.params.maxp →
      (∃ k, k < s.regs.hlen.toNat ∧ valOf (hashByte s.regs k) = none) →
      exec .decode s = .next { s with status := ⟨false, true, .invalidCharacter, false⟩ }) ∧
    (s.regs.hlen.toNat ≠ 0 → s.regs.hlen.toNat ≤ s.params.maxp →
      (∀ k, k < s.regs.hlen.toNat → ∃ v, valOf (hashByte s.regs k) = some v) →
      ∃ t, exec .decode s = .next t ∧ t.status = ⟨true, false, .none, false⟩)

/-- 43_decode.md R164, 30_encoding.md R94, R95: what a decode step does to the engine: the bit is value bit 4 - (k mod 5) of character
k div 5; the axis of k keeps its upper half for 1 and its lower half for 0; E.I goes up by one; and a step that is not the last
changes nothing else. (What the engine's fields hold after the last step, which commits, is the model's choice, log entry 21.) -/
def Obligations.DecodeStepHalvesOneAxis : Prop :=
  ∀ s : State, s.status.busy = true → s.engine.op = .dec →
    ∀ v : Quintet, s.engine.vals[s.engine.i / 5]? = some v →
    let e := s.engine
    let b := v.getLsbD (4 - e.i % 5)
    (engineStep s).engine = { e with
      i := e.i + 1,
      box := if e.i % 2 = 0
             then (if b then { e.box with lonlo := mid e.box.lonlo e.box.lonhi }
                   else { e.box with lonhi := mid e.box.lonlo e.box.lonhi })
             else (if b then { e.box with latlo := mid e.box.latlo e.box.lathi }
                   else { e.box with lathi := mid e.box.latlo e.box.lathi }) } ∧
    (e.i + 1 ≠ 5 * e.n → engineStep s = { s with engine := (engineStep s).engine })

/-- 43_decode.md R166: the last decode step also commits the box and the centroid, BUSY <- 0, DONE <- 1, ERR <- 0, OVR kept; no other
register changes. (The final intervals are read here from the engine as the step leaves it: that it still holds them after the commit is the
model's choice, log entry 21.) -/
def Obligations.DecodeCommitWritesTheBox : Prop :=
  ∀ s : State, s.status.busy = true → s.engine.op = .dec → s.engine.i + 1 = 5 * s.engine.n →
    let x := (engineStep s).engine.box
    engineStep s = { s with
      engine := (engineStep s).engine,
      status := ⟨false, true, .none, s.status.ovr⟩,
      regs := { s.regs with
        latmin := x.latlo, latmax := x.lathi, lonmin := x.lonlo, lonmax := x.lonhi,
        clat := mid x.latlo x.lathi, clon := mid x.lonlo x.lonhi } }

/-- 43_decode.md R171 with R165: from any idle state with a good string, whatever host transactions come between the engine's steps,
the 5n-th step after the accept commits the box of the string's bits and its centroid; every other register is as before the command,
and OVR says whether a host write was dropped. (es holds bus records and engine slots, as in
EncodeResultIsTheFunctionUnderEveryInterleaving.) -/
def Obligations.DecodeResultIsTheBoxUnderEveryInterleaving : Prop :=
  ∀ (s : State) (es rest : List Event) (n : Nat) (vals : List Quintet),
    s.Inv → s.status.busy = false → s.regs.hlen.toNat = n → 1 ≤ n → n ≤ s.params.maxp →
    vals.length = n → (∀ k, k < n → valOf (hashByte s.regs k) = vals[k]?) →
    es.all Event.plain = true → es.countP Event.isEngine + 1 = 5 * n →
    ∃ t, runSteps (es.length + 2)
        ({ s with pending := commandEvent .decode :: (es ++ .engine :: rest) } : State) = .next t ∧
      t.pending = rest ∧ t.params = s.params ∧
      t.status = ⟨false, true, .none, es.any Event.droppable⟩ ∧
      t.regs = { s.regs with
        latmin := (decodeBox (bitOfValues vals) (5 * n)).latlo, latmax := (decodeBox (bitOfValues vals) (5 * n)).lathi,
        lonmin := (decodeBox (bitOfValues vals) (5 * n)).lonlo, lonmax := (decodeBox (bitOfValues vals) (5 * n)).lonhi,
        clat := mid (decodeBox (bitOfValues vals) (5 * n)).latlo (decodeBox (bitOfValues vals) (5 * n)).lathi,
        clon := mid (decodeBox (bitOfValues vals) (5 * n)).lonlo (decodeBox (bitOfValues vals) (5 * n)).lonhi }

/-- 43_decode.md R168: the closed form of the box of the first k bits, for every k up to the 80 bits of 16 characters. Values count units
of 2^-1074; a = ceil(k/2), c = floor(k/2). A zero bound is +0.0. -/
def Obligations.BoxHasItsClosedForm : Prop :=
  ∀ (bit : Nat → Bool) (k : Nat), k ≤ 80 →
    let x := decodeBox bit k
    let L : Int := axisNumber bit true k
    let T : Int := axisNumber bit false k
    let u : Int := 2 ^ 1074
    2 ^ lonBits k * value x.lonlo = (-180 * 2 ^ lonBits k + 360 * L) * u ∧
    2 ^ lonBits k * (value x.lonhi - value x.lonlo) = 360 * u ∧
    2 ^ latBits k * value x.latlo = (-90 * 2 ^ latBits k + 180 * T) * u ∧
    2 ^ latBits k * (value x.lathi - value x.latlo) = 180 * u ∧
    2 ^ lonBits k * (value (mid x.lonlo x.lonhi) - value x.lonlo) = 180 * u ∧
    2 ^ latBits k * (value (mid x.latlo x.lathi) - value x.latlo) = 90 * u ∧
    (∀ w ∈ [x.lonlo, x.lonhi, x.latlo, x.lathi, mid x.lonlo x.lonhi, mid x.latlo x.lathi],
      isFinite w = true ∧ (value w = 0 → w = 0#64))

/-- 40_refine.md R114: up to 48 bisections of each axis every mid-point of the engine's intervals is exact. (The mid-point formed
after k bits is a bound of bisection k/2 + 1, so the last one covered is formed after 94 bits.) -/
def Obligations.EngineMidpointsAreExact : Prop :=
  ∀ (bit : Nat → Bool) (k : Nat), k ≤ 94 →
    2 * value (mid (decodeBox bit k).lonlo (decodeBox bit k).lonhi)
      = value (decodeBox bit k).lonlo + value (decodeBox bit k).lonhi ∧
    2 * value (mid (decodeBox bit k).latlo (decodeBox bit k).lathi)
      = value (decodeBox bit k).latlo + value (decodeBox bit k).lathi

/-- 43_decode.md R169, R170, R173: the box of more bits lies inside the box of fewer, the centroid lies strictly inside the box, and
each further character divides one axis extent by 8 and the other by 4, longitude by 8 after an even number of characters. -/
def Obligations.BoxesNestShrinkAndHoldTheirCentroid : Prop :=
  ∀ (bit : Nat → Bool),
    (∀ j k : Nat, j ≤ k → k ≤ 80 →
      let x := decodeBox bit j
      let y := decodeBox bit k
      value x.lonlo ≤ value y.lonlo ∧ value y.lonhi ≤ value x.lonhi ∧
      value x.latlo ≤ value y.latlo ∧ value y.lathi ≤ value x.lathi ∧
      value y.latlo < value (mid y.latlo y.lathi) ∧ value (mid y.latlo y.lathi) < value y.lathi ∧
      value y.lonlo < value (mid y.lonlo y.lonhi) ∧ value (mid y.lonlo y.lonhi) < value y.lonhi) ∧
    (∀ n : Nat, n ≤ 15 →
      let x := decodeBox bit (5 * n)
      let y := decodeBox bit (5 * (n + 1))
      (if n % 2 = 0 then 8 else 4) * (value y.lonhi - value y.lonlo) = value x.lonhi - value x.lonlo ∧
      (if n % 2 = 0 then 4 else 8) * (value y.lathi - value y.latlo) = value x.lathi - value x.latlo)

/-- 43_decode.md R172: the decoder reads back the encoder's bits and reaches the encoder's intervals. -/
def Obligations.DecoderReachesTheEncodersIntervals : Prop :=
  ∀ (lat lon : Word) (n : Nat),
    ∃ vals, valuesOf (encodeFn lat lon n) = some vals ∧ vals.length = n ∧
      (∀ k, k < 5 * n → bitOfValues vals k = encodeBit lat lon k) ∧
      decodeBox (bitOfValues vals) (5 * n) = boxAfter lat lon (5 * n)

/-- 43_decode.md R172 on the machine: ENCODE and then DECODE with no host write between leaves a closed box that contains the coordinate,
with equality at an upper bound only for 90 or 180. -/
def Obligations.EncodeThenDecodeContainsTheCoordinate : Prop :=
  ∀ (s : State) (rest : List Event) (p : Nat),
    s.Inv → s.status.busy = false → inRange s.regs.lat s.regs.lon = true →
    s.regs.prec.toInt = (p : Int) → 1 ≤ p → p ≤ s.params.maxp →
    ∃ t, runSteps (2 * (5 * p + 1))
        ({ s with pending := commandEvent .encode :: (List.replicate (5 * p) .engine ++
            commandEvent .decode :: (List.replicate (5 * p) .engine ++ rest)) } : State) = .next t ∧
      t.pending = rest ∧ t.status = ⟨false, true, .none, false⟩ ∧
      value t.regs.latmin ≤ value s.regs.lat ∧ value s.regs.lat ≤ value t.regs.latmax ∧
      value t.regs.lonmin ≤ value s.regs.lon ∧ value s.regs.lon ≤ value t.regs.lonmax ∧
      (value s.regs.lat = value t.regs.latmax → value s.regs.lat = 90 * 2 ^ 1074) ∧
      (value s.regs.lon = value t.regs.lonmax → value s.regs.lon = 180 * 2 ^ 1074)

/-! ## The engine's run -/

/-- 44_control.md R188, 42_encode.md R146, 43_decode.md R165, 70_reset_and_hazards.md R215: a running command stays busy, with every
host-visible register unchanged, until exactly 5 x E.N engine steps have been taken, and then it is finished without error. (That E.I
holds 5 x E.N after the commit is the model's choice, log entry 21.) -/
def Obligations.RunningCommandCommitsAtItsLastStep : Prop :=
  ∀ s : State, s.Inv → s.status.busy = true →
    (∀ j, j < 5 * s.engine.n - s.engine.i →
      (engineSteps j s).status = s.status ∧ (engineSteps j s).regs = s.regs ∧
      (engineSteps j s).engine.i = s.engine.i + j) ∧
    (engineSteps (5 * s.engine.n - s.engine.i) s).status = ⟨false, true, .none, s.status.ovr⟩ ∧
    (engineSteps (5 * s.engine.n - s.engine.i) s).engine.i = 5 * s.engine.n

/-- 10_state.md R48, R50: the engine's internal fields cannot be observed: two states that are alike to the host and to the running
command step to states that are alike, or stop alike. -/
def Obligations.EngineInternalsStayInvisible : Prop :=
  ∀ s t : State, s.Alike t → outcomesAlike (step s) (step t)
end

