-- ==== Sys2Proof/Laws/Decode.lean ====
section
/-! SUPPORT. The fields of an encoded word, and what the two decoders can answer. -/

namespace Sys2Proof

/-! ## The fields of a command word and of a record -/

theorem cmdOp_cmdWord (op : BitVec 4) (arg : Byte) : cmdOp (cmdWord op arg) = op := by
  unfold cmdOp cmdWord
  ext i hi
  have h8 : i < 8 := by omega
  simp [BitVec.getLsbD_eq_getElem hi, h8]
  omega

theorem cmdRsv0_cmdWord (op : BitVec 4) (arg : Byte) : cmdRsv0 (cmdWord op arg) = 0#4 := by
  unfold cmdRsv0 cmdWord
  ext i hi
  simp
  omega

theorem cmdArg_cmdWord (op : BitVec 4) (arg : Byte) : cmdArg (cmdWord op arg) = arg := by
  unfold cmdArg cmdWord
  ext i hi
  have h4 : op.getLsbD (8 + i) = false := BitVec.getLsbD_of_ge _ _ (by omega)
  have h0 : 8 + i < 64 := by omega
  simp [h4, h0, BitVec.getLsbD_eq_getElem hi]

theorem cmdRsv1_cmdWord (op : BitVec 4) (arg : Byte) : cmdRsv1 (cmdWord op arg) = 0#48 := by
  unfold cmdRsv1 cmdWord
  ext i hi
  have h4 : op.getLsbD (16 + i) = false := BitVec.getLsbD_of_ge _ _ (by omega)
  have h8 : arg.getLsbD (16 + i - 8) = false := BitVec.getLsbD_of_ge _ _ (by omega)
  simp [h4, h8]

theorem recD_busRecord (d : Bool) (idx : Index) (data : Word) : recD (busRecord d idx data) = d := by
  unfold recD busRecord
  simp

theorem recIdx_busRecord (d : Bool) (idx : Index) (data : Word) : recIdx (busRecord d idx data) = idx := by
  unfold recIdx busRecord
  ext i hi
  have h0 : 64 + i < 69 := by omega
  have h1 : 64 + i < 70 := by omega
  simp [h0, h1, BitVec.getLsbD_eq_getElem hi]

theorem recData_busRecord (d : Bool) (idx : Index) (data : Word) : recData (busRecord d idx data) = data := by
  unfold recData busRecord
  ext i hi
  have h1 : i < 69 := by omega
  simp [hi, h1]
  omega

/-- ARG[7:5] is bits 15:13 of the word (30_encoding.md R86, R87). -/
theorem argTop_eq (w : Word) : (cmdArg w).extractLsb' 5 3 = w.extractLsb' 13 3 := by
  unfold cmdArg
  ext i hi
  have h1 : 5 + i < 8 := by omega
  have h2 : 8 + (5 + i) = 13 + i := by omega
  simp [h1, h2]

end Sys2Proof
end

