-- ==== Sys2Proof/Laws/State.lean ====
section
/-! SUPPORT. One lemma per field per update of the state, true by rfl, so that no later proof unfolds a record update. -/

namespace Sys2Proof.Machine

/-! ## STATUS -/

@[simp] theorem statusAccepted_busy (f : Status) : (statusAccepted f).busy = f.busy := rfl
@[simp] theorem statusAccepted_done (f : Status) : (statusAccepted f).done = false := rfl
@[simp] theorem statusAccepted_err (f : Status) : (statusAccepted f).err = .none := rfl
@[simp] theorem statusAccepted_ovr (f : Status) : (statusAccepted f).ovr = false := rfl

@[simp] theorem statusBusy_busy (f : Status) : (statusBusy f).busy = true := rfl
@[simp] theorem statusBusy_done (f : Status) : (statusBusy f).done = f.done := rfl
@[simp] theorem statusBusy_err (f : Status) : (statusBusy f).err = f.err := rfl
@[simp] theorem statusBusy_ovr (f : Status) : (statusBusy f).ovr = f.ovr := rfl

@[simp] theorem statusFinished_busy (c : ErrorCode) (f : Status) : (statusFinished c f).busy = false := rfl
@[simp] theorem statusFinished_done (c : ErrorCode) (f : Status) : (statusFinished c f).done = true := rfl
@[simp] theorem statusFinished_err (c : ErrorCode) (f : Status) : (statusFinished c f).err = c := rfl
@[simp] theorem statusFinished_ovr (c : ErrorCode) (f : Status) : (statusFinished c f).ovr = f.ovr := rfl

@[simp] theorem statusOverrun_busy (f : Status) : (statusOverrun f).busy = f.busy := rfl
@[simp] theorem statusOverrun_done (f : Status) : (statusOverrun f).done = f.done := rfl
@[simp] theorem statusOverrun_err (f : Status) : (statusOverrun f).err = f.err := rfl
@[simp] theorem statusOverrun_ovr (f : Status) : (statusOverrun f).ovr = true := rfl

/-! ## The shared operations -/

@[simp] theorem finish_params (c : ErrorCode) (s : State) : (finish c s).params = s.params := rfl
@[simp] theorem finish_status (c : ErrorCode) (s : State) : (finish c s).status = statusFinished c s.status := rfl
@[simp] theorem finish_regs (c : ErrorCode) (s : State) : (finish c s).regs = s.regs := rfl
@[simp] theorem finish_engine (c : ErrorCode) (s : State) : (finish c s).engine = s.engine := rfl
@[simp] theorem finish_pending (c : ErrorCode) (s : State) : (finish c s).pending = s.pending := rfl
@[simp] theorem finish_readLog (c : ErrorCode) (s : State) : (finish c s).readLog = s.readLog := rfl

@[simp] theorem raise_params (c : ErrorCode) (s : State) : (raise c s).params = s.params := rfl
@[simp] theorem raise_status (c : ErrorCode) (s : State) : (raise c s).status = statusFinished c s.status := rfl
@[simp] theorem raise_regs (c : ErrorCode) (s : State) : (raise c s).regs = s.regs := rfl
@[simp] theorem raise_engine (c : ErrorCode) (s : State) : (raise c s).engine = s.engine := rfl
@[simp] theorem raise_pending (c : ErrorCode) (s : State) : (raise c s).pending = s.pending := rfl
@[simp] theorem raise_readLog (c : ErrorCode) (s : State) : (raise c s).readLog = s.readLog := rfl

@[simp] theorem dropWrite_params (s : State) : (dropWrite s).params = s.params := rfl
@[simp] theorem dropWrite_status (s : State) : (dropWrite s).status = statusOverrun s.status := rfl
@[simp] theorem dropWrite_regs (s : State) : (dropWrite s).regs = s.regs := rfl
@[simp] theorem dropWrite_engine (s : State) : (dropWrite s).engine = s.engine := rfl
@[simp] theorem dropWrite_pending (s : State) : (dropWrite s).pending = s.pending := rfl
@[simp] theorem dropWrite_readLog (s : State) : (dropWrite s).readLog = s.readLog := rfl

@[simp] theorem clearForAccept_params (s : State) : (clearForAccept s).params = s.params := rfl
@[simp] theorem clearForAccept_status (s : State) : (clearForAccept s).status = statusAccepted s.status := rfl
@[simp] theorem clearForAccept_regs (s : State) : (clearForAccept s).regs = s.regs := rfl
@[simp] theorem clearForAccept_engine (s : State) : (clearForAccept s).engine = s.engine := rfl
@[simp] theorem clearForAccept_pending (s : State) : (clearForAccept s).pending = s.pending := rfl
@[simp] theorem clearForAccept_readLog (s : State) : (clearForAccept s).readLog = s.readLog := rfl

@[simp] theorem applyReset_params (s : State) : (applyReset s).params = s.params := rfl
@[simp] theorem applyReset_status (s : State) : (applyReset s).status = Status.reset := rfl
@[simp] theorem applyReset_regs (s : State) : (applyReset s).regs = Regs.reset := rfl
@[simp] theorem applyReset_engine (s : State) : (applyReset s).engine = Engine.reset := rfl
@[simp] theorem applyReset_pending (s : State) : (applyReset s).pending = s.pending := rfl
@[simp] theorem applyReset_readLog (s : State) : (applyReset s).readLog = s.readLog := rfl

@[simp] theorem commitEncode_params (s : State) : (commitEncode s).params = s.params := rfl
@[simp] theorem commitEncode_status (s : State) : (commitEncode s).status = statusFinished .none s.status := rfl
@[simp] theorem commitEncode_regs (s : State) : (commitEncode s).regs = commitEncodeRegs s.engine s.regs := rfl
@[simp] theorem commitEncode_engine (s : State) : (commitEncode s).engine = s.engine := rfl
@[simp] theorem commitEncode_pending (s : State) : (commitEncode s).pending = s.pending := rfl
@[simp] theorem commitEncode_readLog (s : State) : (commitEncode s).readLog = s.readLog := rfl

@[simp] theorem commitDecode_params (s : State) : (commitDecode s).params = s.params := rfl
@[simp] theorem commitDecode_status (s : State) : (commitDecode s).status = statusFinished .none s.status := rfl
@[simp] theorem commitDecode_regs (s : State) : (commitDecode s).regs = commitDecodeRegs s.engine s.regs := rfl
@[simp] theorem commitDecode_engine (s : State) : (commitDecode s).engine = s.engine := rfl
@[simp] theorem commitDecode_pending (s : State) : (commitDecode s).pending = s.pending := rfl
@[simp] theorem commitDecode_readLog (s : State) : (commitDecode s).readLog = s.readLog := rfl

/-! ## The registers -/

@[simp] theorem commitEncodeRegs_result (e : Engine) (r : Regs) : (commitEncodeRegs e r).result = r.result := rfl
@[simp] theorem commitEncodeRegs_lat (e : Engine) (r : Regs) : (commitEncodeRegs e r).lat = r.lat := rfl
@[simp] theorem commitEncodeRegs_lon (e : Engine) (r : Regs) : (commitEncodeRegs e r).lon = r.lon := rfl
@[simp] theorem commitEncodeRegs_prec (e : Engine) (r : Regs) : (commitEncodeRegs e r).prec = r.prec := rfl
@[simp] theorem commitEncodeRegs_hlen (e : Engine) (r : Regs) : (commitEncodeRegs e r).hlen = BitVec.ofNat 64 e.n := rfl
@[simp] theorem commitEncodeRegs_hash0 (e : Engine) (r : Regs) : (commitEncodeRegs e r).hash0 = packHash0 e.buf.toList := rfl
@[simp] theorem commitEncodeRegs_hash1 (e : Engine) (r : Regs) : (commitEncodeRegs e r).hash1 = packHash1 e.buf.toList := rfl
@[simp] theorem commitEncodeRegs_latmin (e : Engine) (r : Regs) : (commitEncodeRegs e r).latmin = r.latmin := rfl
@[simp] theorem commitEncodeRegs_latmax (e : Engine) (r : Regs) : (commitEncodeRegs e r).latmax = r.latmax := rfl
@[simp] theorem commitEncodeRegs_lonmin (e : Engine) (r : Regs) : (commitEncodeRegs e r).lonmin = r.lonmin := rfl
@[simp] theorem commitEncodeRegs_lonmax (e : Engine) (r : Regs) : (commitEncodeRegs e r).lonmax = r.lonmax := rfl
@[simp] theorem commitEncodeRegs_clat (e : Engine) (r : Regs) : (commitEncodeRegs e r).clat = r.clat := rfl
@[simp] theorem commitEncodeRegs_clon (e : Engine) (r : Regs) : (commitEncodeRegs e r).clon = r.clon := rfl
@[simp] theorem commitEncodeRegs_rval (e : Engine) (r : Regs) : (commitEncodeRegs e r).rval = r.rval := rfl
@[simp] theorem commitEncodeRegs_rlow (e : Engine) (r : Regs) : (commitEncodeRegs e r).rlow = r.rlow := rfl
@[simp] theorem commitEncodeRegs_rhigh (e : Engine) (r : Regs) : (commitEncodeRegs e r).rhigh = r.rhigh := rfl

@[simp] theorem commitDecodeRegs_result (e : Engine) (r : Regs) : (commitDecodeRegs e r).result = r.result := rfl
@[simp] theorem commitDecodeRegs_lat (e : Engine) (r : Regs) : (commitDecodeRegs e r).lat = r.lat := rfl
@[simp] theorem commitDecodeRegs_lon (e : Engine) (r : Regs) : (commitDecodeRegs e r).lon = r.lon := rfl
@[simp] theorem commitDecodeRegs_prec (e : Engine) (r : Regs) : (commitDecodeRegs e r).prec = r.prec := rfl
@[simp] theorem commitDecodeRegs_hlen (e : Engine) (r : Regs) : (commitDecodeRegs e r).hlen = r.hlen := rfl
@[simp] theorem commitDecodeRegs_hash0 (e : Engine) (r : Regs) : (commitDecodeRegs e r).hash0 = r.hash0 := rfl
@[simp] theorem commitDecodeRegs_hash1 (e : Engine) (r : Regs) : (commitDecodeRegs e r).hash1 = r.hash1 := rfl
@[simp] theorem commitDecodeRegs_latmin (e : Engine) (r : Regs) : (commitDecodeRegs e r).latmin = e.box.latlo := rfl
@[simp] theorem commitDecodeRegs_latmax (e : Engine) (r : Regs) : (commitDecodeRegs e r).latmax = e.box.lathi := rfl
@[simp] theorem commitDecodeRegs_lonmin (e : Engine) (r : Regs) : (commitDecodeRegs e r).lonmin = e.box.lonlo := rfl
@[simp] theorem commitDecodeRegs_lonmax (e : Engine) (r : Regs) : (commitDecodeRegs e r).lonmax = e.box.lonhi := rfl
@[simp] theorem commitDecodeRegs_clat (e : Engine) (r : Regs) : (commitDecodeRegs e r).clat = mid e.box.latlo e.box.lathi := rfl
@[simp] theorem commitDecodeRegs_clon (e : Engine) (r : Regs) : (commitDecodeRegs e r).clon = mid e.box.lonlo e.box.lonhi := rfl
@[simp] theorem commitDecodeRegs_rval (e : Engine) (r : Regs) : (commitDecodeRegs e r).rval = r.rval := rfl
@[simp] theorem commitDecodeRegs_rlow (e : Engine) (r : Regs) : (commitDecodeRegs e r).rlow = r.rlow := rfl
@[simp] theorem commitDecodeRegs_rhigh (e : Engine) (r : Regs) : (commitDecodeRegs e r).rhigh = r.rhigh := rfl

@[simp] theorem refineRegs_result (r : Regs) : (refineRegs r).result = (BitVec.ofBool (refine r.rval r.rlow r.rhigh).1).setWidth 64 := rfl
@[simp] theorem refineRegs_lat (r : Regs) : (refineRegs r).lat = r.lat := rfl
@[simp] theorem refineRegs_lon (r : Regs) : (refineRegs r).lon = r.lon := rfl
@[simp] theorem refineRegs_prec (r : Regs) : (refineRegs r).prec = r.prec := rfl
@[simp] theorem refineRegs_hlen (r : Regs) : (refineRegs r).hlen = r.hlen := rfl
@[simp] theorem refineRegs_hash0 (r : Regs) : (refineRegs r).hash0 = r.hash0 := rfl
@[simp] theorem refineRegs_hash1 (r : Regs) : (refineRegs r).hash1 = r.hash1 := rfl
@[simp] theorem refineRegs_latmin (r : Regs) : (refineRegs r).latmin = r.latmin := rfl
@[simp] theorem refineRegs_latmax (r : Regs) : (refineRegs r).latmax = r.latmax := rfl
@[simp] theorem refineRegs_lonmin (r : Regs) : (refineRegs r).lonmin = r.lonmin := rfl
@[simp] theorem refineRegs_lonmax (r : Regs) : (refineRegs r).lonmax = r.lonmax := rfl
@[simp] theorem refineRegs_clat (r : Regs) : (refineRegs r).clat = r.clat := rfl
@[simp] theorem refineRegs_clon (r : Regs) : (refineRegs r).clon = r.clon := rfl
@[simp] theorem refineRegs_rval (r : Regs) : (refineRegs r).rval = r.rval := rfl
@[simp] theorem refineRegs_rlow (r : Regs) : (refineRegs r).rlow = (refine r.rval r.rlow r.rhigh).2.1 := rfl
@[simp] theorem refineRegs_rhigh (r : Regs) : (refineRegs r).rhigh = (refine r.rval r.rlow r.rhigh).2.2 := rfl

/-! ## The engine -/

@[simp] theorem engineForEncode_op (e : Engine) (lat lon : Word) (p : Nat) : (engineForEncode e lat lon p).op = .enc := rfl
@[simp] theorem engineForEncode_n (e : Engine) (lat lon : Word) (p : Nat) : (engineForEncode e lat lon p).n = p := rfl
@[simp] theorem engineForEncode_i (e : Engine) (lat lon : Word) (p : Nat) : (engineForEncode e lat lon p).i = 0 := rfl
@[simp] theorem engineForEncode_box (e : Engine) (lat lon : Word) (p : Nat) : (engineForEncode e lat lon p).box = fullBox := rfl
@[simp] theorem engineForEncode_vlat (e : Engine) (lat lon : Word) (p : Nat) : (engineForEncode e lat lon p).vlat = lat := rfl
@[simp] theorem engineForEncode_vlon (e : Engine) (lat lon : Word) (p : Nat) : (engineForEncode e lat lon p).vlon = lon := rfl
@[simp] theorem engineForEncode_grp (e : Engine) (lat lon : Word) (p : Nat) : (engineForEncode e lat lon p).grp = 0#5 := rfl
@[simp] theorem engineForEncode_buf (e : Engine) (lat lon : Word) (p : Nat) : (engineForEncode e lat lon p).buf = Vector.replicate 16 0#8 := rfl
@[simp] theorem engineForEncode_vals (e : Engine) (lat lon : Word) (p : Nat) : (engineForEncode e lat lon p).vals = e.vals := rfl

@[simp] theorem engineForDecode_op (e : Engine) (n : Nat) (vals : List Quintet) : (engineForDecode e n vals).op = .dec := rfl
@[simp] theorem engineForDecode_n (e : Engine) (n : Nat) (vals : List Quintet) : (engineForDecode e n vals).n = n := rfl
@[simp] theorem engineForDecode_i (e : Engine) (n : Nat) (vals : List Quintet) : (engineForDecode e n vals).i = 0 := rfl
@[simp] theorem engineForDecode_box (e : Engine) (n : Nat) (vals : List Quintet) : (engineForDecode e n vals).box = fullBox := rfl
@[simp] theorem engineForDecode_vlat (e : Engine) (n : Nat) (vals : List Quintet) : (engineForDecode e n vals).vlat = e.vlat := rfl
@[simp] theorem engineForDecode_vlon (e : Engine) (n : Nat) (vals : List Quintet) : (engineForDecode e n vals).vlon = e.vlon := rfl
@[simp] theorem engineForDecode_grp (e : Engine) (n : Nat) (vals : List Quintet) : (engineForDecode e n vals).grp = e.grp := rfl
@[simp] theorem engineForDecode_buf (e : Engine) (n : Nat) (vals : List Quintet) : (engineForDecode e n vals).buf = e.buf := rfl
@[simp] theorem engineForDecode_vals (e : Engine) (n : Nat) (vals : List Quintet) : (engineForDecode e n vals).vals = vals := rfl

@[simp] theorem emit_op (e : Engine) (j : Nat) : (emit e j).op = e.op := rfl
@[simp] theorem emit_n (e : Engine) (j : Nat) : (emit e j).n = e.n := rfl
@[simp] theorem emit_i (e : Engine) (j : Nat) : (emit e j).i = e.i := rfl
@[simp] theorem emit_box (e : Engine) (j : Nat) : (emit e j).box = e.box := rfl
@[simp] theorem emit_vlat (e : Engine) (j : Nat) : (emit e j).vlat = e.vlat := rfl
@[simp] theorem emit_vlon (e : Engine) (j : Nat) : (emit e j).vlon = e.vlon := rfl
@[simp] theorem emit_grp (e : Engine) (j : Nat) : (emit e j).grp = 0#5 := rfl
@[simp] theorem emit_buf (e : Engine) (j : Nat) : (emit e j).buf = e.buf.setIfInBounds j (alph e.grp) := rfl
@[simp] theorem emit_vals (e : Engine) (j : Nat) : (emit e j).vals = e.vals := rfl

@[simp] theorem encodeBisect_op (e : Engine) : (encodeBisect e).op = e.op := rfl
@[simp] theorem encodeBisect_n (e : Engine) : (encodeBisect e).n = e.n := rfl
@[simp] theorem encodeBisect_i (e : Engine) : (encodeBisect e).i = e.i := rfl
@[simp] theorem encodeBisect_box (e : Engine) : (encodeBisect e).box = (refineAxis e.i e.vlat e.vlon e.box).2 := rfl
@[simp] theorem encodeBisect_vlat (e : Engine) : (encodeBisect e).vlat = e.vlat := rfl
@[simp] theorem encodeBisect_vlon (e : Engine) : (encodeBisect e).vlon = e.vlon := rfl
@[simp] theorem encodeBisect_grp (e : Engine) : (encodeBisect e).grp = (e.grp <<< 1) ||| (BitVec.ofBool (refineAxis e.i e.vlat e.vlon e.box).1).setWidth 5 := rfl
@[simp] theorem encodeBisect_buf (e : Engine) : (encodeBisect e).buf = e.buf := rfl
@[simp] theorem encodeBisect_vals (e : Engine) : (encodeBisect e).vals = e.vals := rfl

@[simp] theorem decodeAdvance_op (e : Engine) : (decodeAdvance e).op = e.op := rfl
@[simp] theorem decodeAdvance_n (e : Engine) : (decodeAdvance e).n = e.n := rfl
@[simp] theorem decodeAdvance_i (e : Engine) : (decodeAdvance e).i = e.i + 1 := rfl
@[simp] theorem decodeAdvance_box (e : Engine) : (decodeAdvance e).box = halveAxis e.i (bitOfValues e.vals e.i) e.box := rfl
@[simp] theorem decodeAdvance_vlat (e : Engine) : (decodeAdvance e).vlat = e.vlat := rfl
@[simp] theorem decodeAdvance_vlon (e : Engine) : (decodeAdvance e).vlon = e.vlon := rfl
@[simp] theorem decodeAdvance_grp (e : Engine) : (decodeAdvance e).grp = e.grp := rfl
@[simp] theorem decodeAdvance_buf (e : Engine) : (decodeAdvance e).buf = e.buf := rfl
@[simp] theorem decodeAdvance_vals (e : Engine) : (decodeAdvance e).vals = e.vals := rfl

@[simp] theorem encodeAdvance_op (e : Engine) : (encodeAdvance e).op = e.op := by
  unfold encodeAdvance; dsimp only; split <;> rfl
@[simp] theorem encodeAdvance_n (e : Engine) : (encodeAdvance e).n = e.n := by
  unfold encodeAdvance; dsimp only; split <;> rfl
@[simp] theorem encodeAdvance_i (e : Engine) : (encodeAdvance e).i = e.i + 1 := rfl
@[simp] theorem encodeAdvance_box (e : Engine) : (encodeAdvance e).box = (refineAxis e.i e.vlat e.vlon e.box).2 := by
  unfold encodeAdvance; dsimp only; split <;> rfl
@[simp] theorem encodeAdvance_vlat (e : Engine) : (encodeAdvance e).vlat = e.vlat := by
  unfold encodeAdvance; dsimp only; split <;> rfl
@[simp] theorem encodeAdvance_vlon (e : Engine) : (encodeAdvance e).vlon = e.vlon := by
  unfold encodeAdvance; dsimp only; split <;> rfl
@[simp] theorem encodeAdvance_vals (e : Engine) : (encodeAdvance e).vals = e.vals := by
  unfold encodeAdvance; dsimp only; split <;> rfl

/-- On the step that completes a character (E.I mod 5 = 4) the group returns to 0 (42_encode.md R145). -/
theorem encodeAdvance_grp (e : Engine) :
    (encodeAdvance e).grp = if e.i % 5 = 4 then 0#5 else (encodeBisect e).grp := by
  unfold encodeAdvance; dsimp only; split <;> rfl

/-- On the step that completes a character its code is staged (42_encode.md R145). -/
theorem encodeAdvance_buf (e : Engine) :
    (encodeAdvance e).buf = if e.i % 5 = 4 then e.buf.setIfInBounds (e.i / 5) (alph (encodeBisect e).grp) else e.buf := by
  unfold encodeAdvance; dsimp only; split <;> rfl

end Sys2Proof.Machine
end

