-- ==== Sys2Proof/Laws/Exec.lean ====
section
/-! SUPPORT. What the shared operations and exec can do, said once: accept or drop, the CMD write, and the parts of the state no
instruction touches. -/

namespace Sys2Proof.Machine

/-! ## Accepting a command (44_control.md R180, R181) -/

theorem accepting_busy (body : State → State) (s : State) (h : s.status.busy = true) :
    accepting body s = dropWrite s := by simp [accepting, h]

theorem accepting_idle (body : State → State) (s : State) (h : s.status.busy = false) :
    accepting body s = body (clearForAccept s) := by simp [accepting, h]

theorem storeOrDrop_busy (r : Reg) (v : Word) (s : State) (h : s.status.busy = true) :
    storeOrDrop r v s = dropWrite s := by simp [storeOrDrop, h]

theorem storeOrDrop_idle (r : Reg) (v : Word) (s : State) (h : s.status.busy = false) :
    storeOrDrop r v s = { s with regs := storeReg s.regs v r } := by simp [storeOrDrop, h]

/-- finish after accept on an idle block: STATUS is known in full. -/
theorem finished_accepted (c : ErrorCode) (f : Status) : statusFinished c (statusAccepted f) = ⟨false, true, c, false⟩ := rfl

/-! ## Each command on an idle block -/

theorem execNop_idle (s : State) (h : s.status.busy = false) :
    exec .nop s = .next (finish .none (clearForAccept s)) := congrArg Host.Outcome.next (accepting_idle _ s h)

theorem execInvalid_idle (s : State) (h : s.status.busy = false) :
    execInvalid s = .next (raise .invalidCommand (clearForAccept s)) := congrArg Host.Outcome.next (accepting_idle _ s h)

theorem execEncode_idle (s : State) (h : s.status.busy = false) :
    exec .encode s = .next (acceptEncode (clearForAccept s)) := congrArg Host.Outcome.next (accepting_idle _ s h)

theorem execDecode_idle (s : State) (h : s.status.busy = false) :
    exec .decode s = .next (acceptDecode (clearForAccept s)) := congrArg Host.Outcome.next (accepting_idle _ s h)

theorem execRefine_idle (s : State) (h : s.status.busy = false) :
    exec .refine s = .next (finish .none { clearForAccept s with regs := refineRegs s.regs }) :=
  congrArg Host.Outcome.next (accepting_idle _ s h)

theorem execEncchar_idle (arg : Byte) (s : State) (h : s.status.busy = false) :
    exec (.encchar arg) s = .next (if arg.extractLsb' 5 3 = 0#3 then
        finish .none { clearForAccept s with
          regs := { s.regs with result := (alph (arg.extractLsb' 0 5)).setWidth 64 } }
      else raise .invalidCommand (clearForAccept s)) := congrArg Host.Outcome.next (accepting_idle _ s h)

theorem execDecchar_idle (c : Byte) (s : State) (h : s.status.busy = false) :
    exec (.decchar c) s = .next (match valOf c with
      | none => raise .invalidCharacter (clearForAccept s)
      | some v => finish .none { clearForAccept s with regs := { s.regs with result := v.setWidth 64 } }) :=
  congrArg Host.Outcome.next (accepting_idle _ s h)

/-! ## The CMD write -/

/-- A word is valid exactly when it decodes (30_encoding.md R87, R88). -/
theorem decodeCmd_ok_iff (w : Word) : (∃ c, decodeCmd w = .ok c) ↔ validWord w = true := by
  unfold decodeCmd validWord
  rw [← argTop_eq]
  have hop : (cmdOp w).toNat < 16 := (cmdOp w).isLt
  have hc : ∀ n : Nat, n < 16 → ((cmdOp w).toNat = n ↔ cmdOp w = BitVec.ofNat 4 n) := by
    intro n hn
    rw [← BitVec.toNat_inj, BitVec.toNat_ofNat, Nat.mod_eq_of_lt (by omega)]
  by_cases h1 : cmdRsv1 w = 0#48 <;> by_cases h0 : cmdRsv0 w = 0#4 <;> simp [h1, h0]
  split
  case h_7 => rename_i a0 a1 a2 a3 a4 a5; simp_all
  all_goals rename_i h; rw [hc _ (by omega)] at h; simp [h]
  all_goals split <;> simp_all

/-- What a CMD write does, by what the word decodes to (44_control.md R180, R185). -/
theorem writeCommand_eq (w : Word) (s : State) :
    writeCommand w s = match decodeCmd w with
      | .ok c => exec c s
      | .error _ => execInvalid s := by
  have hv := decodeCmd_ok_iff w
  unfold writeCommand
  cases hd : decodeCmd w with
  | error e =>
    have : validWord w = false := by
      cases h : validWord w with
      | false => rfl
      | true => obtain ⟨c, hc⟩ := hv.2 h; simp [hd] at hc
    simp [this]
  | ok c =>
    rw [if_pos (hv.1 ⟨c, hd⟩)]
    unfold decodeCmd at hd
    split at hd
    · simp at hd
    · split at hd
      · simp at hd
      · split at hd <;> (try split at hd) <;> simp_all <;> subst hd <;> rfl

/-! ## What no instruction touches -/

/-- The two things an accept body can be: it keeps the parameters, the events to come and the read log. -/
theorem accepting_keeps (body : State → State)
    (hb : ∀ a, (body a).params = a.params ∧ (body a).pending = a.pending ∧ (body a).readLog = a.readLog) (s : State) :
    (accepting body s).params = s.params ∧ (accepting body s).pending = s.pending ∧
      (accepting body s).readLog = s.readLog := by
  unfold accepting
  split
  · exact ⟨rfl, rfl, rfl⟩
  · exact hb _

theorem acceptEncode_keeps (a : State) : (acceptEncode a).params = a.params ∧ (acceptEncode a).pending = a.pending ∧
    (acceptEncode a).readLog = a.readLog ∧ (acceptEncode a).regs = a.regs := by
  unfold acceptEncode
  split
  · exact ⟨rfl, rfl, rfl, rfl⟩
  · split <;> exact ⟨rfl, rfl, rfl, rfl⟩

theorem acceptDecode_keeps (a : State) : (acceptDecode a).params = a.params ∧ (acceptDecode a).pending = a.pending ∧
    (acceptDecode a).readLog = a.readLog ∧ (acceptDecode a).regs = a.regs := by
  unfold acceptDecode
  split
  · exact ⟨rfl, rfl, rfl, rfl⟩
  · split
    · exact ⟨rfl, rfl, rfl, rfl⟩
    · split <;> exact ⟨rfl, rfl, rfl, rfl⟩

/-- Every command answers a next state with the parameters, the events to come and the read log of before. -/
theorem exec_command_next (c : Instr) (hc : c.isCommand = true) (s : State) :
    ∃ t, exec c s = .next t ∧ t.params = s.params ∧ t.pending = s.pending ∧ t.readLog = s.readLog := by
  cases c with
  | nop => refine ⟨_, rfl, accepting_keeps _ ?_ s⟩; intro a; exact ⟨rfl, rfl, rfl⟩
  | encode =>
    exact ⟨_, rfl, accepting_keeps _ (fun a => ⟨(acceptEncode_keeps a).1, (acceptEncode_keeps a).2.1, (acceptEncode_keeps a).2.2.1⟩) s⟩
  | decode =>
    exact ⟨_, rfl, accepting_keeps _ (fun a => ⟨(acceptDecode_keeps a).1, (acceptDecode_keeps a).2.1, (acceptDecode_keeps a).2.2.1⟩) s⟩
  | refine => refine ⟨_, rfl, accepting_keeps _ ?_ s⟩; intro a; exact ⟨rfl, rfl, rfl⟩
  | encchar arg => exact ⟨_, rfl, accepting_keeps _ (fun a => by dsimp only; split <;> exact ⟨rfl, rfl, rfl⟩) s⟩
  | decchar ch => exact ⟨_, rfl, accepting_keeps _ (fun a => by dsimp only; split <;> exact ⟨rfl, rfl, rfl⟩) s⟩
  | rd idx => simp [Instr.isCommand] at hc
  | wr idx data => simp [Instr.isCommand] at hc

/-- What a decoded command word is: a command. -/
theorem decodeCmd_isCommand {w : Word} {c : Instr} (h : decodeCmd w = .ok c) : c.isCommand = true := by
  unfold decodeCmd at h
  split at h
  · simp at h
  · split at h
    · simp at h
    · split at h <;> (try split at h) <;> simp_all <;> subst h <;> rfl

/-- A BusWrite by the access class of its index (20_memory.md R61). -/
theorem execWr_next (idx : Index) (data : Word) (s : State) :
    ∃ t, execWr idx data s = .next t ∧ t.params = s.params ∧ t.pending = s.pending ∧ t.readLog = s.readLog := by
  unfold execWr
  split
  · rw [writeCommand_eq]
    cases h : decodeCmd data with
    | ok c => exact exec_command_next c (decodeCmd_isCommand h) s
    | error e => refine ⟨_, rfl, accepting_keeps _ ?_ s⟩; intro a; exact ⟨rfl, rfl, rfl⟩
  · refine ⟨_, rfl, ?_⟩
    unfold storeOrDrop
    split <;> exact ⟨rfl, rfl, rfl⟩
  · exact ⟨_, rfl, rfl, rfl, rfl⟩
  · exact ⟨_, rfl, rfl, rfl, rfl⟩

/-- Every instruction answers a next state, and none touches the parameters or the events to come. -/
theorem exec_next (i : Instr) (s : State) :
    ∃ t, exec i s = .next t ∧ t.params = s.params ∧ t.pending = s.pending := by
  cases hi : i.isCommand with
  | true =>
    obtain ⟨t, h, hp, hq, -⟩ := exec_command_next i hi s
    exact ⟨t, h, hp, hq⟩
  | false =>
    cases i with
    | rd idx => exact ⟨_, rfl, rfl, rfl⟩
    | wr idx data =>
      obtain ⟨t, h, hp, hq, -⟩ := execWr_next idx data s
      exact ⟨t, h, hp, hq⟩
    | nop => simp [Instr.isCommand] at hi
    | encode => simp [Instr.isCommand] at hi
    | decode => simp [Instr.isCommand] at hi
    | refine => simp [Instr.isCommand] at hi
    | encchar arg => simp [Instr.isCommand] at hi
    | decchar c => simp [Instr.isCommand] at hi

/-- While BUSY = 1 every command's CMD write is dropped (44_control.md R181). -/
theorem exec_command_busy (c : Instr) (hc : c.isCommand = true) (s : State) (h : s.status.busy = true) :
    exec c s = .next (dropWrite s) := by
  cases c with
  | nop => exact congrArg _ (accepting_busy _ s h)
  | encode => exact congrArg _ (accepting_busy _ s h)
  | decode => exact congrArg _ (accepting_busy _ s h)
  | refine => exact congrArg _ (accepting_busy _ s h)
  | encchar arg => exact congrArg _ (accepting_busy _ s h)
  | decchar ch => exact congrArg _ (accepting_busy _ s h)
  | rd idx => simp [Instr.isCommand] at hc
  | wr idx data => simp [Instr.isCommand] at hc

/-- What a BusWrite does while BUSY = 1 (20_memory.md R61). -/
theorem execWr_busy (idx : Index) (data : Word) (s : State) (h : s.status.busy = true) :
    execWr idx data s =
      .next (if accessOf (regAt idx) = .wo ∨ accessOf (regAt idx) = .rw then dropWrite s else s) := by
  unfold execWr
  split <;> rename_i ha <;> rw [ha]
  · rw [writeCommand_eq]
    cases hd : decodeCmd data with
    | ok c => simpa using exec_command_busy c (decodeCmd_isCommand hd) s h
    | error e => exact congrArg _ (accepting_busy _ s h)
  · simp [storeOrDrop_busy _ _ s h]
  · simp
  · simp

/-- What an accepted command leaves of an idle block: a finished block, with its registers written as the command says and
its engine untouched, or an ENCODE or DECODE under way. -/
theorem exec_command_idle (c : Instr) (hc : c.isCommand = true) (s t : State) (h : s.status.busy = false)
    (hx : exec c s = .next t) :
    (∃ code regs, t = { s with status := ⟨false, true, code, false⟩, regs := regs }) ∨
    (c = .encode ∧ inRange s.regs.lat s.regs.lon = true ∧ precisionLegal (precision s.regs) s.params.maxp = true ∧
      t = { s with
        status := ⟨true, false, .none, false⟩
        engine := engineForEncode s.engine s.regs.lat s.regs.lon (precision s.regs).toNat }) ∨
    (c = .decode ∧ ∃ n vals, hashLength s.regs = n ∧ n ≠ 0 ∧ n ≤ s.params.maxp ∧
      valuesOf (hashString s.regs n) = some vals ∧
      t = { s with status := ⟨true, false, .none, false⟩, engine := engineForDecode s.engine n vals }) := by
  cases c with
  | nop => rw [execNop_idle s h] at hx; cases hx; exact .inl ⟨.none, s.regs, rfl⟩
  | encode =>
    rw [execEncode_idle s h] at hx
    cases hx
    unfold acceptEncode
    split
    · exact .inl ⟨.outOfRange, s.regs, rfl⟩
    · split
      · exact .inl ⟨.invalidPrecision, s.regs, rfl⟩
      · rename_i h1 h2
        exact .inr (.inl ⟨rfl, by simpa using h1, by simpa using h2, rfl⟩)
  | decode =>
    rw [execDecode_idle s h] at hx
    cases hx
    unfold acceptDecode
    split
    · exact .inl ⟨.emptyInput, s.regs, rfl⟩
    · split
      · exact .inl ⟨.invalidPrecision, s.regs, rfl⟩
      · split
        · exact .inl ⟨.invalidCharacter, s.regs, rfl⟩
        · rename_i h1 h2 _ vals hv
          exact .inr (.inr ⟨rfl, hashLength s.regs, vals, rfl, h1, not_lt.1 h2, hv, rfl⟩)
  | refine => rw [execRefine_idle s h] at hx; cases hx; exact .inl ⟨.none, refineRegs s.regs, rfl⟩
  | encchar arg =>
    rw [execEncchar_idle arg s h] at hx
    cases hx
    split
    · exact .inl ⟨.none, _, rfl⟩
    · exact .inl ⟨.invalidCommand, s.regs, rfl⟩
  | decchar ch =>
    rw [execDecchar_idle ch s h] at hx
    cases hx
    split
    · exact .inl ⟨.invalidCharacter, s.regs, rfl⟩
    · exact .inl ⟨.none, _, rfl⟩
  | rd idx => simp [Instr.isCommand] at hc
  | wr idx data => simp [Instr.isCommand] at hc

/-- Everything an instruction can do: a read, nothing, a dropped write, a store, an illegal word, or a command. -/
theorem exec_cases (i : Instr) (s t : State) (hx : exec i s = .next t) :
    (∃ v, t = { s with readLog := s.readLog ++ [v] }) ∨
    t = s ∨
    (s.status.busy = true ∧ t = dropWrite s) ∨
    (s.status.busy = false ∧ ∃ r v, t = { s with regs := storeReg s.regs v r }) ∨
    (s.status.busy = false ∧ t = { s with status := ⟨false, true, .invalidCommand, false⟩ }) ∨
    (s.status.busy = false ∧ ∃ c, c.isCommand = true ∧ exec i s = exec c s ∧ exec c s = .next t) := by
  cases hi : i.isCommand with
  | true =>
    cases hb : s.status.busy with
    | true =>
      rw [exec_command_busy i hi s hb] at hx
      cases hx
      exact .inr (.inr (.inl ⟨rfl, rfl⟩))
    | false => exact .inr (.inr (.inr (.inr (.inr ⟨rfl, i, hi, rfl, hx⟩))))
  | false =>
    cases i with
    | rd idx => cases hx; exact .inl ⟨_, rfl⟩
    | wr idx data =>
      have hw : exec (.wr idx data) s = execWr idx data s := rfl
      cases hb : s.status.busy with
      | true =>
        rw [hw, execWr_busy idx data s hb] at hx
        cases hx
        split
        · exact .inr (.inr (.inl ⟨rfl, rfl⟩))
        · exact .inr (.inl rfl)
      | false =>
        rw [hw] at hx ⊢
        unfold execWr at hx ⊢
        split at hx
        · rw [writeCommand_eq] at hx ⊢
          cases hd : decodeCmd data with
          | ok c =>
            rw [hd] at hx
            exact .inr (.inr (.inr (.inr (.inr ⟨rfl, c, decodeCmd_isCommand hd, rfl, hx⟩))))
          | error e =>
            rw [hd] at hx
            dsimp only at hx
            rw [execInvalid_idle s hb] at hx
            cases hx
            exact .inr (.inr (.inr (.inr (.inl ⟨rfl, rfl⟩))))
        · cases hx
          exact .inr (.inr (.inr (.inl ⟨rfl, regAt idx, data, storeOrDrop_idle _ _ _ hb⟩)))
        · cases hx; exact .inr (.inl rfl)
        · cases hx; exact .inr (.inl rfl)
    | nop => simp [Instr.isCommand] at hi
    | encode => simp [Instr.isCommand] at hi
    | decode => simp [Instr.isCommand] at hi
    | refine => simp [Instr.isCommand] at hi
    | encchar arg => simp [Instr.isCommand] at hi
    | decchar c => simp [Instr.isCommand] at hi

end Sys2Proof.Machine
end

