-- ==== Sys2Proof/Laws/Codec.lean ====
section
/-! SUPPORT. The base-32 tables, strings in the hash buffer, and the engine's step, one spec lemma each. -/

namespace Sys2Proof.Machine

/-! ## The base-32 tables (41_base32.md R131, R132) -/

theorem valOf_alph : ∀ v : Quintet, valOf (alph v) = some v := by decide

theorem valOf_eq_some_iff (c : Byte) (v : Quintet) : valOf c = some v ↔ alph v = c := by
  constructor
  · intro h
    simpa using List.find?_some h
  · intro h
    subst h
    exact valOf_alph v

/-! ## Strings -/

theorem valuesOf_isSome : ∀ l : List Byte, (∀ c ∈ l, ∃ v, valOf c = some v) → ∃ vs, valuesOf l = some vs
  | [], _ => ⟨[], rfl⟩
  | c :: l, h => by
    obtain ⟨v, hv⟩ := h c (by simp)
    obtain ⟨vs, hvs⟩ := valuesOf_isSome l (fun d hd => h d (by simp [hd]))
    exact ⟨v :: vs, by simp [valuesOf, hv, hvs]⟩

/-- Where every character has a value, `valuesOf` lists them in order. -/
theorem valuesOf_spec : ∀ (l : List Byte) (vs : List Quintet), valuesOf l = some vs →
    vs.length = l.length ∧ ∀ k : Nat, (l[k]?).bind valOf = vs[k]?
  | [], vs, h => by
    simp [valuesOf] at h
    subst h
    simp
  | c :: l, vs, h => by
    simp only [valuesOf] at h
    cases hv : valOf c with
    | none => simp [hv] at h
    | some v =>
      cases hl : valuesOf l with
      | none => simp [hv, hl] at h
      | some ws =>
        simp [hv, hl] at h
        subst h
        obtain ⟨h1, h2⟩ := valuesOf_spec l ws hl
        refine ⟨by simp [h1], fun k => ?_⟩
        cases k with
        | zero => simp [hv]
        | succ k => simpa using h2 k

theorem valuesOf_eq_none : ∀ l : List Byte, (∃ c ∈ l, valOf c = none) → valuesOf l = none
  | [], h => by simp at h
  | c :: l, h => by
    simp only [valuesOf]
    cases hv : valOf c with
    | none => rfl
    | some v =>
      obtain ⟨d, hd, hn⟩ := h
      rcases List.mem_cons.1 hd with rfl | hd
      · simp [hv] at hn
      · simp [valuesOf_eq_none l ⟨d, hd, hn⟩]

theorem hashString_getElem? (r : Regs) (n k : Nat) (h : k < n) : (hashString r n)[k]? = some (hashByte r k) := by
  simp [hashString, h]

theorem hashString_length (r : Regs) (n : Nat) : (hashString r n).length = n := by simp [hashString]

/-- The values of the buffer's first n characters, given one by one. -/
theorem valuesOf_hashString (r : Regs) (n : Nat) (vals : List Quintet) (hl : vals.length = n)
    (h : ∀ k, k < n → valOf (hashByte r k) = vals[k]?) : valuesOf (hashString r n) = some vals := by
  obtain ⟨vs, hvs⟩ := valuesOf_isSome (hashString r n) (by
    intro c hc
    simp [hashString] at hc
    obtain ⟨k, hk, rfl⟩ := hc
    rw [h k hk]
    exact ⟨vals[k]'(by omega), by simp [hl, hk]⟩)
  obtain ⟨h1, h2⟩ := valuesOf_spec _ _ hvs
  rw [hvs]
  congr 1
  apply List.ext_getElem?
  intro k
  by_cases hk : k < n
  · rw [← h2 k, hashString_getElem? r n k hk, ← h k hk]
    rfl
  · rw [List.getElem?_eq_none (by rw [h1, hashString_length]; omega), List.getElem?_eq_none (by omega)]

/-- Byte k of a packed word is the k-th byte packed (10_state.md R28). -/
theorem packBytes_byte (f : Nat → Byte) (k : Nat) (hk : k < 8) : (packBytes f).extractLsb' (8 * k) 8 = f k := by
  unfold packBytes
  interval_cases k <;> (ext i hi; simp [BitVec.getLsbD_eq_getElem hi]) <;> (interval_cases i <;> simp)

theorem hashByte_congr {r r' : Regs} (h0 : r.hash0 = r'.hash0) (h1 : r.hash1 = r'.hash1) (k : Nat) :
    hashByte r k = hashByte r' k := by unfold hashByte; rw [h0, h1]

/-- Character k of a string is byte k of the buffer it is packed into, 0x00 past its end (10_state.md R28, 30_encoding.md R99). -/
theorem hashByte_packed (r : Regs) (str : List Byte) (h0 : r.hash0 = packHash0 str) (h1 : r.hash1 = packHash1 str)
    (k : Nat) (hk : k < 16) : hashByte r k = str.getD k 0#8 := by
  unfold hashByte
  rw [h0, h1]
  unfold packHash0 packHash1
  split
  · rename_i h
    rw [packBytes_byte _ _ h]
  · rename_i h
    rw [packBytes_byte _ _ (by omega)]
    congr 1
    omega

/-- Two strings with the same first sixteen characters, 0x00 past the end, pack alike. -/
theorem packHash_congr (s t : List Byte) (h : ∀ k, k < 16 → s.getD k 0#8 = t.getD k 0#8) :
    packHash0 s = packHash0 t ∧ packHash1 s = packHash1 t := by
  constructor
  · unfold packHash0 packBytes
    simp only [h 0 (by omega), h 1 (by omega), h 2 (by omega), h 3 (by omega), h 4 (by omega), h 5 (by omega),
      h 6 (by omega), h 7 (by omega)]
  · unfold packHash1 packBytes
    simp only [Nat.zero_add, Nat.reduceAdd, h 8 (by omega), h 9 (by omega), h 10 (by omega), h 11 (by omega),
      h 12 (by omega), h 13 (by omega), h 14 (by omega), h 15 (by omega)]

/-! ## Accepting ENCODE and DECODE -/

theorem acceptEncode_ok (a : State) (hr : inRange a.regs.lat a.regs.lon = true)
    (hp : precisionLegal (precision a.regs) a.params.maxp = true) :
    acceptEncode a = { a with
      status := statusBusy a.status
      engine := engineForEncode a.engine a.regs.lat a.regs.lon (precision a.regs).toNat } := by
  unfold acceptEncode
  simp [hr, hp]

theorem acceptDecode_ok (a : State) (n : Nat) (vals : List Quintet) (hn : hashLength a.regs = n) (h0 : n ≠ 0)
    (h1 : n ≤ a.params.maxp) (hv : valuesOf (hashString a.regs n) = some vals) :
    acceptDecode a =
      { a with status := statusBusy a.status, engine := engineForDecode a.engine n vals } := by
  unfold acceptDecode
  rw [hn, if_neg h0, if_neg (by omega), hv]

/-! ## The engine's step (44_control.md R187) -/

theorem engineStep_enc (s : State) (hb : s.status.busy = true) (ho : s.engine.op = .enc)
    (hn : s.engine.i + 1 ≠ 5 * s.engine.n) : engineStep s = { s with engine := encodeAdvance s.engine } := by
  simp only [engineStep, hb, ho, if_true]
  unfold encodeStep Config.bitsPerChar
  dsimp only
  rw [if_neg (by simpa using hn)]

theorem engineStep_enc_last (s : State) (hb : s.status.busy = true) (ho : s.engine.op = .enc)
    (hn : s.engine.i + 1 = 5 * s.engine.n) :
    engineStep s = commitEncode { s with engine := encodeAdvance s.engine } := by
  simp only [engineStep, hb, ho, if_true]
  unfold encodeStep Config.bitsPerChar
  dsimp only
  rw [if_pos (by simpa using hn)]

theorem engineStep_dec (s : State) (hb : s.status.busy = true) (ho : s.engine.op = .dec)
    (hn : s.engine.i + 1 ≠ 5 * s.engine.n) : engineStep s = { s with engine := decodeAdvance s.engine } := by
  simp only [engineStep, hb, ho, if_true]
  unfold decodeStep Config.bitsPerChar
  dsimp only
  rw [if_neg (by simpa using hn)]

theorem engineStep_dec_last (s : State) (hb : s.status.busy = true) (ho : s.engine.op = .dec)
    (hn : s.engine.i + 1 = 5 * s.engine.n) :
    engineStep s = commitDecode { s with engine := decodeAdvance s.engine } := by
  simp only [engineStep, hb, ho, if_true]
  unfold decodeStep Config.bitsPerChar
  dsimp only
  rw [if_pos (by simpa using hn)]

/-- Everything an engine step can do: nothing while idle, one bit, or one bit and the commit. -/
theorem engineStep_cases (s : State) :
    (s.status.busy = false ∧ engineStep s = s) ∨
    (s.status.busy = true ∧ s.engine.op = .enc ∧
      ((s.engine.i + 1 ≠ 5 * s.engine.n ∧ engineStep s = { s with engine := encodeAdvance s.engine }) ∨
       (s.engine.i + 1 = 5 * s.engine.n ∧ engineStep s = commitEncode { s with engine := encodeAdvance s.engine }))) ∨
    (s.status.busy = true ∧ s.engine.op = .dec ∧
      ((s.engine.i + 1 ≠ 5 * s.engine.n ∧ engineStep s = { s with engine := decodeAdvance s.engine }) ∨
       (s.engine.i + 1 = 5 * s.engine.n ∧ engineStep s = commitDecode { s with engine := decodeAdvance s.engine }))) := by
  cases hb : s.status.busy with
  | false => exact .inl ⟨rfl, by simp [engineStep, hb]⟩
  | true =>
    cases ho : s.engine.op with
    | enc =>
      by_cases hn : s.engine.i + 1 = 5 * s.engine.n
      · exact .inr (.inl ⟨rfl, rfl, .inr ⟨hn, engineStep_enc_last s hb ho hn⟩⟩)
      · exact .inr (.inl ⟨rfl, rfl, .inl ⟨hn, engineStep_enc s hb ho hn⟩⟩)
    | dec =>
      by_cases hn : s.engine.i + 1 = 5 * s.engine.n
      · exact .inr (.inr ⟨rfl, rfl, .inr ⟨hn, engineStep_dec_last s hb ho hn⟩⟩)
      · exact .inr (.inr ⟨rfl, rfl, .inl ⟨hn, engineStep_dec s hb ho hn⟩⟩)

/-! ## The two halvings agree -/

/-- ENCODE narrows the axis to the half its bit names, as DECODE does with that bit (40_refine.md R111, 43_decode.md R164). -/
theorem refineAxis_box (k : Nat) (vlat vlon : Word) (x : Box) :
    (refineAxis k vlat vlon x).2 = halveAxis k (refineAxis k vlat vlon x).1 x := by
  unfold refineAxis halveAxis refine
  split <;> dsimp only <;> split <;> rfl

theorem boxAfter_eq_decodeBox (lat lon : Word) (k : Nat) : boxAfter lat lon k = decodeBox (encodeBit lat lon) k := by
  induction k with
  | zero => rfl
  | succ k ih =>
    show (refineAxis k lat lon (boxAfter lat lon k)).2 = halveAxis k (encodeBit lat lon k) (decodeBox _ k)
    rw [refineAxis_box, ← ih]
    rfl

theorem decodeBox_congr (b c : Nat → Bool) (k : Nat) (h : ∀ j, j < k → b j = c j) : decodeBox b k = decodeBox c k := by
  induction k with
  | zero => rfl
  | succ k ih =>
    show halveAxis k (b k) (decodeBox b k) = halveAxis k (c k) (decodeBox c k)
    rw [ih (fun j hj => h j (by omega)), h k (by omega)]

end Sys2Proof.Machine
end

