-- ==== Sys2Proof/Laws/Float.lean ====
section
/-! SUPPORT. The fields of a binary64 word that rounding makes, the kinds of words, their order, and when a sum or a half is
exact. -/

namespace Sys2Proof.Machine

theorem roundMagnitude_le (num den : Nat) : roundMagnitude num den ≤ infBits := Nat.min_le_right _ _

theorem withSign_toNat (neg : Bool) (m : Nat) (h : m ≤ infBits) : (withSign neg m).toNat = neg.toNat * 2 ^ 63 + m := by
  unfold withSign infBits at *
  rw [BitVec.toNat_ofNat]
  cases neg <;> simp <;> omega

theorem expField_withSign (neg : Bool) (m : Nat) (h : m ≤ infBits) : expField (withSign neg m) = m / 2 ^ 52 := by
  have hm := h
  unfold infBits at hm
  unfold expField
  rw [BitVec.extractLsb'_toNat, withSign_toNat neg m h, Nat.shiftRight_eq_div_pow]
  cases neg <;> simp <;> omega

theorem fracField_withSign (neg : Bool) (m : Nat) (h : m ≤ infBits) : fracField (withSign neg m) = m % 2 ^ 52 := by
  have hm := h
  unfold infBits at hm
  unfold fracField
  rw [BitVec.extractLsb'_toNat, withSign_toNat neg m h, Nat.shiftRight_eq_div_pow]
  cases neg
  · simp
  · simp
    omega

theorem signBit_withSign (neg : Bool) (m : Nat) (h : m ≤ infBits) : signBit (withSign neg m) = neg := by
  have hm := h
  unfold infBits at hm
  unfold signBit
  rw [BitVec.getLsbD, withSign_toNat neg m h, Nat.testBit_eq_decide_div_mod_eq]
  cases neg <;> simp <;> omega

theorem isNaN_withSign (neg : Bool) (m : Nat) (h : m ≤ infBits) : isNaN (withSign neg m) = false := by
  unfold isNaN
  rw [expField_withSign neg m h, fracField_withSign neg m h]
  unfold infBits at h
  simp
  omega

theorem isNaN_cnan : isNaN Config.cnan = true := by decide

theorem ge_nan_right (v m : Word) (h : isNaN m = true) : ge v m = false := by simp [ge, h]

theorem ge_nan_left (v m : Word) (h : isNaN v = true) : ge v m = false := by simp [ge, h]

/-- A word is a NaN, an infinity or finite, and only one of them. -/
theorem kind_cases (w : Word) :
    (isNaN w = true ∧ isInf w = false ∧ isFinite w = false) ∨ (isNaN w = false ∧ isInf w = true ∧ isFinite w = false) ∨
    (isNaN w = false ∧ isInf w = false ∧ isFinite w = true) := by
  unfold isNaN isInf isFinite
  by_cases he : expField w = 2047 <;> by_cases hf : fracField w = 0 <;> simp [he, hf]

/-! ## The place of a significand -/

/-- A significand of at most 53 bits and the place 2^e of its last bit are read back from the word that holds them. -/
theorem magnitude_withSign (neg : Bool) (e m : Nat) (hm : m ≤ 2 ^ 53) (he : e = 0 ∨ 2 ^ 52 ≤ m)
    (hb : e * 2 ^ 52 + m ≤ infBits) : magnitude (withSign neg (e * 2 ^ 52 + m)) = m * 2 ^ e := by
  unfold magnitude
  rw [expField_withSign neg _ hb, fracField_withSign neg _ hb]
  by_cases h1 : m < 2 ^ 52
  · obtain rfl : e = 0 := by omega
    rw [if_pos (by omega)]
    simp
    omega
  · by_cases h2 : m = 2 ^ 53
    · subst h2
      rw [if_neg (by omega), show (e * 2 ^ 52 + 2 ^ 53) / 2 ^ 52 - 1 = e + 1 by omega,
        show (e * 2 ^ 52 + 2 ^ 53) % 2 ^ 52 = 0 by omega, pow_succ]
      ring
    · rw [if_neg (by omega), show (e * 2 ^ 52 + m) / 2 ^ 52 - 1 = e by omega,
        show 2 ^ 52 + (e * 2 ^ 52 + m) % 2 ^ 52 = m by omega]

theorem isFinite_withSign (neg : Bool) (m : Nat) (h : m < infBits) : isFinite (withSign neg m) = true := by
  unfold isFinite
  rw [expField_withSign neg m (by omega)]
  unfold infBits at h
  simp
  omega

theorem value_withSign (neg : Bool) (m : Nat) (h : m ≤ infBits) :
    value (withSign neg m) = if neg then -(magnitude (withSign neg m) : Int) else (magnitude (withSign neg m) : Int) := by
  unfold value
  rw [signBit_withSign neg m h]

theorem value_natAbs (w : Word) : (value w).natAbs = magnitude w := by
  unfold value
  split <;> simp

/-! ## The order of finite values and infinities -/

theorem fracField_lt (w : Word) : fracField w < 2 ^ 52 := by
  unfold fracField
  exact BitVec.isLt _

theorem expField_lt (w : Word) : expField w < 2 ^ 11 := by
  unfold expField
  exact BitVec.isLt _

/-- Every finite magnitude lies below 2^1024, that is 2^2098 units. -/
theorem magnitude_finite_lt (w : Word) (h : isFinite w = true) : magnitude w < 2 ^ 2098 := by
  have hf := fracField_lt w
  have he := expField_lt w
  have hne : expField w ≠ 2047 := by simpa [isFinite] using h
  unfold magnitude
  split
  · exact hf.trans (pow_lt_pow_right₀ one_lt_two (by norm_num))
  · calc (2 ^ 52 + fracField w) * 2 ^ (expField w - 1) < 2 ^ 53 * 2 ^ (expField w - 1) :=
          Nat.mul_lt_mul_of_pos_right (by omega) (by positivity)
      _ ≤ 2 ^ 53 * 2 ^ 2045 := Nat.mul_le_mul_left _ (pow_le_pow_right₀ one_le_two (by omega))
      _ = 2 ^ 2098 := by rw [← pow_add]

/-- An infinity counts as 2^2098 units. -/
theorem magnitude_inf (w : Word) (h : isInf w = true) : magnitude w = 2 ^ 2098 := by
  obtain ⟨he, hf⟩ : expField w = 2047 ∧ fracField w = 0 := by simpa [isInf] using h
  unfold magnitude
  rw [he, hf, if_neg (by omega), Nat.add_zero, ← pow_add]

/-- Every value that is no NaN lies between the infinities. -/
theorem magnitude_le (w : Word) (h : isNaN w = false) : magnitude w ≤ 2 ^ 2098 := by
  rcases kind_cases w with ⟨h1, _, _⟩ | ⟨_, h2, _⟩ | ⟨_, _, h3⟩
  · rw [h] at h1
    cases h1
  · exact (magnitude_inf w h2).le
  · exact (magnitude_finite_lt w h3).le

/-- What is no NaN and counts 2^2098 units is an infinity. -/
theorem isInf_of_magnitude (w : Word) (h : isNaN w = false) (hm : magnitude w = 2 ^ 2098) : isInf w = true := by
  rcases kind_cases w with ⟨h1, _, _⟩ | ⟨_, h2, _⟩ | ⟨_, _, h3⟩
  · rw [h] at h1
    cases h1
  · exact h2
  · exact absurd (hm ▸ magnitude_finite_lt w h3) (lt_irrefl _)

/-- The values of words that are no NaN lie between those of the infinities. -/
theorem value_bounds (w : Word) (h : isNaN w = false) : -((2 ^ 2098 : Nat) : Int) ≤ value w ∧ value w ≤ ((2 ^ 2098 : Nat) : Int) := by
  have := magnitude_le w h
  generalize 2 ^ 2098 = N at *
  unfold value
  split <;> omega

theorem value_posInf : value 0x7FF0000000000000#64 = ((2 ^ 2098 : Nat) : Int) := by
  rw [value, if_neg (by decide), magnitude_inf _ (by decide)]

theorem value_negInf : value 0xFFF0000000000000#64 = -((2 ^ 2098 : Nat) : Int) := by
  rw [value, if_pos (by decide), magnitude_inf _ (by decide)]

/-- A word is its sign, its biased exponent and its fraction. -/
theorem word_ext (x y : Word) (hs : signBit x = signBit y) (he : expField x = expField y) (hf : fracField x = fracField y) :
    x = y := by
  have he' := BitVec.eq_of_toNat_eq he
  have hf' := BitVec.eq_of_toNat_eq hf
  apply BitVec.eq_of_getLsbD_eq
  intro i hi
  by_cases h1 : i < 52
  · simpa [BitVec.getLsbD_extractLsb', h1] using congrArg (·.getLsbD i) hf'
  · by_cases h2 : i < 63
    · simpa [BitVec.getLsbD_extractLsb', show i - 52 < 11 by omega, show 52 + (i - 52) = i by omega] using
        congrArg (·.getLsbD (i - 52)) he'
    · obtain rfl : i = 63 := by omega
      exact hs

/-- The comparison of words that are no NaN is that of their values. -/
theorem ge_iff (x y : Word) (hx : isNaN x = false) (hy : isNaN y = false) : ge x y = true ↔ value y ≤ value x := by
  simp [ge, hx, hy]

/-! ## Exact results -/

theorem roundHalfEven_exact (q den : Nat) (hd : 0 < den) : roundHalfEven (q * den) den = q := by
  unfold roundHalfEven
  rw [Nat.mul_mod_left, if_pos (by omega), Nat.mul_div_cancel _ hd]

/-- A number of at most 53 significant bits is not changed by rounding. -/
theorem roundMagnitude_exact (neg : Bool) (m k : Nat) (hm : m < 2 ^ 53) (hb : m * 2 ^ k < 2 ^ 2098) :
    magnitude (withSign neg (roundMagnitude (m * 2 ^ k) 1)) = m * 2 ^ k ∧
    isFinite (withSign neg (roundMagnitude (m * 2 ^ k) 1)) = true := by
  obtain ⟨N, hN⟩ : ∃ N, N = m * 2 ^ k := ⟨_, rfl⟩
  rw [← hN] at hb ⊢
  unfold roundMagnitude
  dsimp only
  rw [Nat.div_one, Nat.one_mul]
  by_cases h0 : N < 2 ^ 53
  · have he : Nat.log2 N - 52 = 0 := by
      by_cases hz : N = 0
      · subst hz
        decide
      · have := (Nat.log2_lt hz).2 h0
        omega
    rw [he, show roundHalfEven N (2 ^ 0) = N by simpa using roundHalfEven_exact N 1 (by omega),
      Nat.min_eq_left (by unfold infBits; omega)]
    constructor
    · simpa using magnitude_withSign neg 0 N (by omega) (.inl rfl) (by unfold infBits; omega)
    · exact isFinite_withSign neg _ (by unfold infBits; omega)
  · have hz : N ≠ 0 := by omega
    obtain ⟨e, he⟩ : ∃ e, e = Nat.log2 N - 52 := ⟨_, rfl⟩
    have h53 : 53 ≤ Nat.log2 N := (Nat.le_log2 hz).2 (by omega)
    have hlo : 2 ^ (52 + e) ≤ N := (Nat.le_log2 hz).1 (by omega)
    have hhi : N < 2 ^ (53 + e) := (Nat.log2_lt hz).1 (by omega)
    have hek : e ≤ k := by
      by_contra hc
      have h1 : m * 2 ^ k < 2 ^ 53 * 2 ^ k := Nat.mul_lt_mul_of_pos_right hm (by positivity)
      have h2 : 2 ^ (53 + k) ≤ 2 ^ (52 + e) := Nat.pow_le_pow_right (by omega) (by omega)
      rw [← pow_add] at h1
      omega
    have hq : N = m * 2 ^ (k - e) * 2 ^ e := by
      rw [hN, mul_assoc, ← pow_add, show k - e + e = k by omega]
    obtain ⟨q, hqd⟩ : ∃ q, q = m * 2 ^ (k - e) := ⟨_, rfl⟩
    rw [← hqd] at hq
    have hq1 : 2 ^ 52 ≤ q := by
      by_contra hc
      have h1 : q * 2 ^ e < 2 ^ 52 * 2 ^ e := Nat.mul_lt_mul_of_pos_right (by omega) (by positivity)
      rw [← pow_add, ← hq] at h1
      omega
    have hq2 : q < 2 ^ 53 := by
      by_contra hc
      have h1 : 2 ^ 53 * 2 ^ e ≤ q * 2 ^ e := Nat.mul_le_mul_right _ (by omega)
      rw [← pow_add, ← hq] at h1
      omega
    have he2 : e ≤ 2045 := by
      have := (Nat.log2_lt hz).2 hb
      omega
    rw [← he, show roundHalfEven N (2 ^ e) = q by rw [hq]; exact roundHalfEven_exact q _ (by positivity),
      Nat.min_eq_left (by unfold infBits; omega)]
    constructor
    · rw [magnitude_withSign neg e q (by omega) (.inr hq1) (by unfold infBits; omega), hq]
    · exact isFinite_withSign neg _ (by unfold infBits; omega)

/-- Rounding half of an even number is rounding the number's half. -/
theorem roundMagnitude_two (n : Nat) : roundMagnitude (2 * n) 2 = roundMagnitude n 1 := by
  unfold roundMagnitude roundHalfEven
  dsimp only
  rw [Nat.mul_div_cancel_left n (by omega), Nat.div_one, Nat.one_mul]
  rw [Nat.mul_mod_mul_left, Nat.mul_div_mul_left _ _ (by omega)]
  have h1 : ∀ a b : Nat, (2 * (2 * a) < 2 * b ↔ 2 * a < b) ∧ (2 * b < 2 * (2 * a) ↔ b < 2 * a) := by omega
  simp only [h1]

theorem not_nan_of_finite {w : Word} (h : isFinite w = true) : isNaN w = false ∧ isInf w = false := by
  rcases kind_cases w with ⟨_, _, h3⟩ | ⟨_, _, h3⟩ | ⟨h1, h2, _⟩
  · simp [h] at h3
  · simp [h] at h3
  · exact ⟨h1, h2⟩

/-- A sum of at most 53 significant bits is exact, and a zero sum of operands of unlike or positive sign is +0.0. -/
theorem add_exact (x y : Word) (hx : isFinite x = true) (hy : isFinite y = true) (m k : Nat) (hm : m < 2 ^ 53)
    (hb : m * 2 ^ k < 2 ^ 2098) (hs : (value x + value y).natAbs = m * 2 ^ k) :
    value (add x y) = value x + value y ∧ isFinite (add x y) = true ∧
    (value x + value y = 0 → (signBit x && signBit y) = false → add x y = 0#64) := by
  obtain ⟨n1, i1⟩ := not_nan_of_finite hx
  obtain ⟨n2, i2⟩ := not_nan_of_finite hy
  unfold add
  rw [n1, n2, i1, i2]
  simp only [Bool.or_self, Bool.false_eq_true, if_false]
  by_cases hz : value x + value y = 0
  · rw [if_pos hz, hz]
    refine ⟨?_, ?_, fun _ hs => ?_⟩
    · cases (signBit x && signBit y) <;> decide
    · cases (signBit x && signBit y) <;> decide
    · rw [hs]
      decide
  · rw [if_neg hz, hs]
    obtain ⟨h1, h2⟩ := roundMagnitude_exact (decide (value x + value y < 0)) m k hm hb
    refine ⟨?_, h2, fun h => absurd h hz⟩
    rw [value_withSign _ _ (roundMagnitude_le _ _), h1, ← hs]
    obtain ⟨S, hS⟩ : ∃ S, S = value x + value y := ⟨_, rfl⟩
    rw [← hS]
    by_cases hn : S < 0
    · rw [if_pos (by simpa using hn)]
      omega
    · rw [if_neg (by simpa using hn)]
      omega

/-- The half of an even number of units with at most 53 significant bits is exact. -/
theorem half_exact (x : Word) (hx : isFinite x = true) (m k : Nat) (hm : m < 2 ^ 53) (hb : m * 2 ^ k < 2 ^ 2098)
    (hs : magnitude x = 2 * (m * 2 ^ k)) :
    2 * value (half x) = value x ∧ isFinite (half x) = true ∧ signBit (half x) = signBit x := by
  obtain ⟨n1, i1⟩ := not_nan_of_finite hx
  unfold half
  rw [n1, i1, hs, roundMagnitude_two]
  simp only [Bool.false_eq_true, if_false]
  obtain ⟨h1, h2⟩ := roundMagnitude_exact (signBit x) m k hm hb
  refine ⟨?_, h2, signBit_withSign _ _ (roundMagnitude_le _ _)⟩
  unfold value
  rw [h1, signBit_withSign _ _ (roundMagnitude_le _ _), hs]
  split <;> push_cast <;> ring

end Sys2Proof.Machine
end

