-- ==== Sys2Proof/Laws/PerInstr.lean ====
section
/-! SUPPORT. What holds of every instruction as syntax, one lemma per constructor: EncodeMatch, its encoding has the fixed bits
and the format of its row of spec/opcode_table.json. -/

namespace Sys2Proof.Laws.EncodeMatch

/-- The bits an encoding has under a row's mask are the row's match. -/
def fitsCmd (mask bits : Word) : Encoding → Prop
  | .cmd w => w &&& mask = bits
  | .bus _ => False

/-- The same for a row of the BUS format. -/
def fitsBus (mask bits : Record) : Encoding → Prop
  | .cmd _ => False
  | .bus r => r &&& mask = bits

/-- A well-formed instruction's encoding is in the format of its row of spec/opcode_table.json and has the row's fixed bits. -/
def Statement (i : Instr) : Prop :=
  i.wellFormed = true →
    match i with
    | .nop => fitsCmd 0xFFFFFFFFFFFFFFFF#64 0x0#64 (encode i)
    | .encode => fitsCmd 0xFFFFFFFFFFFFFFFF#64 0x1#64 (encode i)
    | .decode => fitsCmd 0xFFFFFFFFFFFFFFFF#64 0x2#64 (encode i)
    | .refine => fitsCmd 0xFFFFFFFFFFFFFFFF#64 0x3#64 (encode i)
    | .encchar _ => fitsCmd 0xFFFFFFFFFFFFE0FF#64 0x4#64 (encode i)
    | .decchar _ => fitsCmd 0xFFFFFFFFFFFF00FF#64 0x5#64 (encode i)
    | .rd _ => fitsBus 0x200000000000000000#70 0x0#70 (encode i)
    | .wr _ _ => fitsBus 0x200000000000000000#70 0x200000000000000000#70 (encode i)

theorem nop : Statement .nop :=
  fun _ => (by decide : cmdWord 0#4 0#8 &&& 0xFFFFFFFFFFFFFFFF#64 = 0x0#64)

theorem encode : Statement .encode :=
  fun _ => (by decide : cmdWord 1#4 0#8 &&& 0xFFFFFFFFFFFFFFFF#64 = 0x1#64)

theorem decode : Statement .decode :=
  fun _ => (by decide : cmdWord 2#4 0#8 &&& 0xFFFFFFFFFFFFFFFF#64 = 0x2#64)

theorem refine : Statement .refine :=
  fun _ => (by decide : cmdWord 3#4 0#8 &&& 0xFFFFFFFFFFFFFFFF#64 = 0x3#64)

theorem encchar (arg : Byte) : Statement (.encchar arg) := by
  have h : ∀ a : Byte, a.extractLsb' 5 3 = 0#3 → cmdWord 4#4 a &&& 0xFFFFFFFFFFFFE0FF#64 = 0x4#64 := by decide
  exact fun hw => h arg (by simpa [Instr.wellFormed] using hw)

theorem decchar (c : Byte) : Statement (.decchar c) := by
  have h : ∀ a : Byte, cmdWord 5#4 a &&& 0xFFFFFFFFFFFF00FF#64 = 0x5#64 := by decide
  exact fun _ => h c

/-- The mask of both BUS rows is bit 69 alone. -/
theorem busRecord_and (d : Bool) (idx : Index) (data : Word) :
    busRecord d idx data &&& 0x200000000000000000#70 = if d then 0x200000000000000000#70 else 0x0#70 := by
  have hm : (0x200000000000000000#70 : Record) = BitVec.twoPow 70 69 := by decide
  rw [hm, BitVec.and_twoPow]
  have hd : (busRecord d idx data).getLsbD 69 = d := recD_busRecord d idx data
  rw [hd]

theorem rd (idx : Index) : Statement (.rd idx) := fun _ => busRecord_and false idx 0#64

theorem wr (idx : Index) (data : Word) : Statement (.wr idx data) := fun _ => busRecord_and true idx data

end Sys2Proof.Laws.EncodeMatch
end

