-- ==== Sys2Proof/Laws/Step.lean ====
section
/-! SUPPORT. What a step can do, by the next event, and how runs compose. -/

namespace Sys2Proof.Machine

theorem step_nil (s : State) (h : s.pending = []) : step s = .next (engineStep s) := by
  unfold step; rw [h]

theorem step_cons (s : State) (e : Event) (rest : List Event) (h : s.pending = e :: rest) :
    step s = runEvent e { s with pending := rest } := by
  unfold step; rw [h]

theorem engineStep_idle (s : State) (h : s.status.busy = false) : engineStep s = s := by simp [engineStep, h]

/-- A CMD write delivered as a record is the command it carries. -/
theorem runRecord_command (w : Word) (c : Instr) (h : decodeCmd w = .ok c) (s : State) :
    runRecord (busRecord true cmdIndex w) s = exec c s := by
  show exec (decodeBus _) s = _
  unfold decodeBus
  simp only [recD_busRecord, recIdx_busRecord, recData_busRecord, if_true]
  show writeCommand w s = _
  rw [writeCommand_eq, h]

/-- What a mapped access is: a bus transaction. -/
theorem accessInstr_ok {base addr bytes : Nat} {wdata : Option Word} {i : Instr}
    (h : accessInstr base addr bytes wdata = .ok i) : i.isCommand = false := by
  unfold accessInstr at h
  dsimp only at h
  split at h
  · simp at h
  · split at h
    · simp at h
    · cases wdata <;> cases h <;> rfl

theorem decodeBus_isCommand (r : Record) : (decodeBus r).isCommand = false := by
  unfold decodeBus
  split <;> rfl

/-- A step whose next event is a transaction is that transaction. -/
theorem step_delivers (s : State) (e : Event) (rest : List Event) (i : Instr) (hp : s.pending = e :: rest)
    (hd : e.delivers s.params.base i) : step s = exec i { s with pending := rest } := by
  rw [step_cons s e rest hp]
  cases e with
  | bus r => exact congrArg (exec · _) hd
  | access addr bytes wdata =>
    have h : accessInstr s.params.base addr bytes wdata = .ok i := hd
    show runAccess addr bytes wdata _ = _
    simp only [runAccess, h]
  | engine => exact hd.elim
  | reset _ => exact hd.elim
  | wait _ => exact hd.elim

/-- Everything a step that goes on can be: an engine step, a reset, a turn of WAIT, or one bus transaction, delivered as a record or
as a mapped access. -/
theorem step_cases (s t : State) (h : step s = .next t) :
    (s.pending = [] ∧ t = engineStep s) ∨
    (∃ rest, s.pending = .engine :: rest ∧ t = engineStep { s with pending := rest }) ∨
    (∃ arriving rest, s.pending = .reset arriving :: rest ∧ t = applyReset { s with pending := rest }) ∨
    (∃ gaps rest q, s.pending = .wait gaps :: rest ∧
      t = { s with pending := q, readLog := s.readLog ++ [statusWord s.status] }) ∨
    (∃ e rest i, s.pending = e :: rest ∧ i.isCommand = false ∧ e.delivers s.params.base i ∧ step s = exec i { s with pending := rest } ∧
      exec i { s with pending := rest } = .next t) := by
  cases hp : s.pending with
  | nil =>
    rw [step_nil s hp] at h
    cases h
    exact .inl ⟨rfl, rfl⟩
  | cons e rest =>
    have hs := step_cons s e rest hp
    rw [hs] at h
    cases e with
    | engine => cases h; exact .inr (.inl ⟨rest, rfl, rfl⟩)
    | reset arriving => cases h; exact .inr (.inr (.inl ⟨arriving, rest, rfl, rfl⟩))
    | bus r => exact .inr (.inr (.inr (.inr ⟨_, rest, _, rfl, decodeBus_isCommand _, rfl, hs, h⟩)))
    | access addr bytes wdata =>
      change runAccess addr bytes wdata _ = _ at h
      change step s = runAccess addr bytes wdata _ at hs
      unfold runAccess at h hs
      split at h
      · rename_i i hi
        simp only [hi] at hs
        exact .inr (.inr (.inr (.inr ⟨_, rest, i, rfl, accessInstr_ok hi, hi, hs, h⟩)))
      · cases h
      · cases h
    | wait gaps =>
      change runWait gaps _ = _ at h
      unfold runWait at h
      simp only [exec, execRd] at h
      cases h
      refine .inr (.inr (.inr (.inl ⟨gaps, rest, ?_⟩)))
      split
      · exact ⟨waitAgain gaps ++ rest, rfl, rfl⟩
      · exact ⟨rest, rfl, rfl⟩

/-! ## Runs -/

@[simp] theorem runSteps_zero (s : State) : runSteps 0 s = .next s := rfl

/-- A run whose first step goes on. -/
theorem runSteps_next {k : Nat} {s t : State} (h : step s = .next t) : runSteps (k + 1) s = runSteps k t := by
  simp only [runSteps, h]

/-- A run whose first step faults. -/
theorem runSteps_fault {k : Nat} {s : State} {f : Fault} (h : step s = .fault f) : runSteps (k + 1) s = .fault f := by
  simp only [runSteps, h]

/-- A run whose first step is refused. -/
theorem runSteps_refused {k : Nat} {s : State} {r : Refusal} (h : step s = .refused r) : runSteps (k + 1) s = .refused r := by
  simp only [runSteps, h]

/-- A run that goes on has a first step that goes on. -/
theorem runSteps_inv {k : Nat} {s t : State} (h : runSteps (k + 1) s = .next t) :
    ∃ u, step s = .next u ∧ runSteps k u = .next t := by
  cases hs : step s with
  | next u => exact ⟨u, rfl, by simpa [runSteps, hs] using h⟩
  | fault f => simp [runSteps, hs] at h
  | refused r => simp [runSteps, hs] at h

/-- Runs compose. -/
theorem runSteps_add (j k : Nat) (s t : State) (h : runSteps j s = .next t) : runSteps (j + k) s = runSteps k t := by
  induction j generalizing s with
  | zero => cases h; simp
  | succ j ih =>
    obtain ⟨u, hu, hr⟩ := runSteps_inv h
    rw [Nat.add_right_comm, runSteps_next hu]
    exact ih u hr

/-- One step of a run of any machine, as the host defines it. -/
theorem coreRun_cases (M : Host.Core) (k : Nat) (s : M.State) :
    (∀ t, M.step s = .next t → M.run (k + 1) s = M.run k t) ∧
    (∀ f, M.step s = .fault f → M.run (k + 1) s = .fault f) ∧
    (∀ r, M.step s = .refused r → M.run (k + 1) s = .refused r) := by
  refine ⟨fun t h => ?_, fun f h => ?_, fun r h => ?_⟩ <;> simp [Host.Core.run, h]

/-- The host's run of the machine is this one. -/
theorem coreRun_eq (k : Nat) (s : State) : Host.Core.run Sys2Proof.core k s = runSteps k s := by
  induction k generalizing s with
  | zero => rfl
  | succ k ih =>
    have hc := coreRun_cases Sys2Proof.core k s
    cases hs : step s with
    | next t => exact (hc.1 t hs).trans ((ih t).trans (runSteps_next hs).symm)
    | fault f => exact (hc.2.1 f hs).trans (runSteps_fault hs).symm
    | refused r => exact (hc.2.2 r hs).trans (runSteps_refused hs).symm

end Sys2Proof.Machine
end

