-- ==== Sys2Proof/Tests/Slice0.lean ====
section
/-! SUPPORT. Named tests: ill-formed terms, written-out encodings, at most two single steps per instruction with the expected values of
spec/95_test_vectors.md, and for every statement with hypotheses a state and operands that meet them. -/

namespace Sys2Proof.Tests

open Sys2Proof.Machine

/-! ## Helpers -/

/-- The state of a next outcome. -/
def nextState : Host.Outcome State Fault Refusal → Option State
  | .next s => some s
  | .fault _ => none
  | .refused _ => none

/-- STATUS as read and RESULT after one instruction. -/
def statusAndResult (i : Instr) (s : State) : Option (Word × Word) :=
  (nextState (exec i s)).map fun t => (statusWord t.status, t.regs.result)

/-- An idle block with the given registers, right after reset otherwise. -/
def withRegs (r : Regs) : State := { State.reset with regs := r }

/-- LAT = LON = 0.0 and PREC = 1: the operands of vector E1. -/
def origin : State := withRegs { Regs.reset with prec := 1#64 }

/-- LAT = 90.0, LON = 180.0 and PREC = MAXP = 12: the operands of vector E15. -/
def corner : State := withRegs { Regs.reset with lat := Config.latMax, lon := Config.lonMax, prec := 12#64 }

/-- HASH0 holds "s" and HLEN = 1: the operands of vector D1. -/
def letterS : State := withRegs { Regs.reset with hash0 := 0x73#64, hlen := 1#64 }

/-- STATUS while a command runs. -/
def running : Status := ⟨true, false, .none, false⟩

/-- The origin's ENCODE right after its accept. -/
def encodeStarted : State :=
  { origin with status := running, engine := engineForEncode Engine.reset 0#64 0#64 1 }

/-- The origin's ENCODE before its last step (95_test_vectors.md section 5.2, step 5). -/
def encodeLast : State :=
  { origin with
    status := running
    engine := { Engine.reset with
      op := .enc, n := 1, i := 4, grp := 0b01100#5, box := ⟨0#64, 0x4056800000000000#64, 0#64, 0x4046800000000000#64⟩ } }

/-- The DECODE of "s" right after its accept. -/
def decodeStarted : State :=
  { letterS with status := running, engine := engineForDecode Engine.reset 1 [24#5] }

/-- The DECODE of "s" before its last step (95_test_vectors.md section 6.2, step 5). -/
def decodeLast : State :=
  { letterS with
    status := running
    engine := { Engine.reset with
      op := .dec, n := 1, i := 4, vals := [24#5], box := ⟨0#64, 0x4056800000000000#64, 0#64, 0x4046800000000000#64⟩ } }

/-! ## Well-formedness: the one check, and its boundary (30_encoding.md R86) -/

theorem test_illformed_encchar_refused : (Instr.encchar 0x20#8).wellFormed = false := by decide

theorem test_largest_encchar_admitted : (Instr.encchar 0x1F#8).wellFormed = true := by decide

/-! ## Decoding: one written-out word per row (30_encoding.md R81, R85, R86) -/

theorem test_decode_nop : decodeTableWord 64 0x0 = some .nop := by decide

theorem test_decode_encode : decodeTableWord 64 0x1 = some .encode := by decide

theorem test_decode_decode : decodeTableWord 64 0x2 = some .decode := by decide

theorem test_decode_refine : decodeTableWord 64 0x3 = some .refine := by decide

/-- OP = 0100, RSV0 = 0000, ARG = 00011000. -/
theorem test_decode_encchar : decodeTableWord 64 0b0001100000000100 = some (.encchar 24#8) := by decide

/-- OP = 0101, RSV0 = 0000, ARG = 01110011. -/
theorem test_decode_decchar : decodeTableWord 64 0b0111001100000101 = some (.decchar 0x73#8) := by decide

/-- D = 0, IDX = 10 (LATMIN), as program P1 of 95_test_vectors.md writes it. -/
theorem test_decode_rd : decodeTableWord 72 0x0A0000000000000000 = some (.rd 10#5) := by decide

/-- D = 1, IDX = 4 (LAT), DATA = 41.88..., as program P1 writes it. -/
theorem test_decode_wr : decodeTableWord 72 0x244044F1393F2069F1 = some (.wr 4#5 0x4044F1393F2069F1#64) := by decide

/-- The six ways a command word is illegal (95_test_vectors.md section 7 and 30_encoding.md R88). -/
theorem test_illegal_words :
    decodeCmd 0x6#64 = .error .reservedOp ∧ decodeCmd 0xF#64 = .error .reservedOp ∧
    decodeCmd 0x14#64 = .error .nonzeroRsv0 ∧ decodeCmd 0x10000#64 = .error .nonzeroRsv1 ∧
    decodeCmd 0x100#64 = .error .unusedArgBit ∧ decodeCmd 0x2004#64 = .error .unusedArgBit := by decide

/-! ## The instructions, one step each -/

theorem test_nop_clears_errors :
    statusAndResult .nop { State.reset with status := ⟨false, true, .invalidCharacter, true⟩ } = some (0x2#64, 0#64) := by decide

/-- ENCODE's accept sets BUSY and nothing the host can read but STATUS. -/
theorem test_encode_accept : statusAndResult .encode origin = some (0x1#64, 0#64) := by decide +kernel

/-- A latitude just above 90 is OutOfRange, with PREC = 0 as well (60_exceptions.md R193). -/
theorem test_encode_range_before_precision :
    statusAndResult .encode (withRegs { Regs.reset with lat := 0x4056800000000001#64 }) = some (0x12#64, 0#64) := by
  decide +kernel

/-- The last step of vector E1: HASH0 = 0x73, HLEN = 1, STATUS = 0x2. -/
theorem test_encode_last_step :
    (engineStep encodeLast).regs.hash0 = 0x73#64 ∧ (engineStep encodeLast).regs.hash1 = 0#64 ∧
    (engineStep encodeLast).regs.hlen = 1#64 ∧ statusWord (engineStep encodeLast).status = 0x2#64 := by decide +kernel

/-- Vector D22: "a1" is InvalidCharacter. -/
theorem test_decode_invalid_character :
    statusAndResult .decode (withRegs { Regs.reset with hash0 := 0x3161#64, hlen := 2#64 }) = some (0x32#64, 0#64) := by decide

/-- The last step of vector D1. -/
theorem test_decode_last_step :
    (engineStep decodeLast).regs.latmax = 0x4046800000000000#64 ∧ (engineStep decodeLast).regs.lonmax = 0x4046800000000000#64 ∧
    (engineStep decodeLast).regs.clat = 0x4036800000000000#64 ∧ (engineStep decodeLast).regs.clon = 0x4036800000000000#64 ∧
    statusWord (engineStep decodeLast).status = 0x2#64 := by decide +kernel

/-- Vector F3: -0.0 is at the mid-point +0.0. -/
theorem test_refine_negative_zero :
    statusAndResult .refine (withRegs { Regs.reset with
      rval := 0x8000000000000000#64, rlow := 0xC056800000000000#64, rhigh := 0x4056800000000000#64 }) =
    some (0x2#64, 1#64) := by decide +kernel

/-- Vector F7: half of the least subnormal rounds to even. -/
theorem test_refine_rounds_to_even : mid 0#64 1#64 = 0#64 ∧ mid 1#64 3#64 = 2#64 := by decide +kernel

theorem test_encchar_24 : statusAndResult (.encchar 24#8) State.reset = some (0x2#64, 0x73#64) := by decide

/-- Vector CH8: 'a' is excluded, and RESULT keeps what it held. -/
theorem test_decchar_excluded :
    statusAndResult (.decchar 0x61#8) (withRegs { Regs.reset with result := 0x1234#64 }) = some (0x32#64, 0x1234#64) := by decide

theorem test_decchar_s : statusAndResult (.decchar 0x73#8) State.reset = some (0x2#64, 24#64) := by decide

/-- 10_state.md R20: CONFIG reads MAXP. -/
theorem test_rd_config : (nextState (exec (.rd 0#5) State.reset)).map (·.readLog) = some [12#64] := by decide

/-- 30_encoding.md R88: a reserved OP written to CMD. -/
theorem test_wr_illegal_word : statusAndResult (.wr 1#5 0x6#64) State.reset = some (0x52#64, 0#64) := by decide

/-- 44_control.md R181: a register write while BUSY = 1 is dropped and sets OVR. -/
theorem test_wr_busy_dropped :
    (nextState (exec (.wr 4#5 1#64) encodeStarted)).map (fun t => (t.regs.lat, statusWord t.status)) =
    some (0#64, 0x101#64) := by decide

/-- The constants of 95_test_vectors.md section 1, assembled from their decimals. -/
theorem test_decimal_words :
    decimalWord ⟨false, 41884559527232234, 15⟩ = 0x4044F1393F2069F1#64 ∧
    decimalWord ⟨true, 56, 1⟩ = 0xC016666666666666#64 ∧ decimalWord ⟨false, 100, 0⟩ = 0x4059000000000000#64 := by decide +kernel

/-- 20_memory.md R69: a program under a schedule with engine slots between its transactions and before the first read of WAIT. -/
theorem test_scheduled :
    scheduled [0, 2, 1] (assemble [.wr 1#5 (.cmd .encode 0#8), .wait []]) =
    [commandEvent .encode, .engine, .engine, .wait [], .engine] := by decide

/-! ## Witnesses: a state and operands that meet the hypotheses of each statement -/

theorem witness_DecodingAnEncodingGivesTheInstruction :
    (Instr.encchar 0x1F#8).wellFormed = true ∧ (Instr.decchar 0xFF#8).wellFormed = true ∧ (Instr.rd 31#5).wellFormed = true ∧
    (Instr.wr 31#5 0xFFFFFFFFFFFFFFFF#64).wellFormed = true := by decide

theorem witness_EncodingADecodedWordGivesTheWord :
    decode (.cmd 0x1F04#64) = .ok (.encchar 0x1F#8) ∧
    decode (.bus 0x1F0000000000000000#70) = .ok (.rd 31#5) ∧ recD 0x1F0000000000000000#70 = false ∧
    recData 0x1F0000000000000000#70 = 0#64 := by decide

theorem witness_FetchedTableWordRunsItsInstruction :
    decodeTableWord 64 0x7305 = some (.decchar 0x73#8) ∧ decodeTableWord 72 0x26000000000000000C = some (.wr 6#5 12#64) := by decide

/-- A CMD write of DECCHAR, and a read. -/
theorem witness_StepRunsTheDecodedTransaction :
    ({ State.reset with pending := [.bus 0x210000000000007305#70] } : State).pending = .bus 0x210000000000007305#70 :: [] ∧
    recD 0x210000000000007305#70 = true ∧ recIdx 0x210000000000007305#70 = 1#5 ∧
    decodeCmd (recData 0x210000000000007305#70) = .ok (.decchar 0x73#8) := by decide

theorem witness_EngineStepsExactlyWhileBusy :
    (encodeStarted.status.busy = true ∧ encodeStarted.engine.op = .enc ∧ encodeStarted.pending = []) ∧
    (decodeStarted.status.busy = true ∧ decodeStarted.engine.op = .dec ∧ decodeStarted.pending = []) ∧
    (origin.status.busy = false ∧ origin.pending = []) ∧
    ({ encodeStarted with pending := [.engine] } : State).pending = .engine :: [] := by decide

/-- With BASE = 0x1000: a half word, an access off alignment, the last word of the window, and the words on either side of it. -/
theorem witness_ByteAccessesAreMappedOrRefused :
    (4 ≠ 8 ∧ ((0x1004 : Int) - (0x1000 : Nat)) % 8 ≠ 0) ∧
    (0x10F8 = 0x1000 + 8 * (31#5 : Index).toNat) ∧
    (0xFF8 < 0x1000 ∧ ((0xFF8 : Int) - (0x1000 : Nat)) % 8 = 0) ∧
    (0x1000 + 256 ≤ 0x1100 ∧ ((0x1100 : Int) - (0x1000 : Nat)) % 8 = 0) ∧
    step { State.reset with params := ⟨12, 0x1000⟩, pending := [.access 0xFF8 8 none] } = .fault .outsideWindow ∧
    step { State.reset with params := ⟨12, 0x1000⟩, pending := [.access 0x1100 8 none] } = .fault .outsideWindow ∧
    step { State.reset with params := ⟨12, 0x1000⟩, pending := [.access 0x1000 4 none] } = .refused .notATransaction :=
  ⟨by decide, by decide, by decide, by decide, rfl, rfl, rfl⟩

theorem witness_WaitReadsStatusUntilIdle :
    ({ origin with pending := [.wait [2]] } : State).pending = .wait [2] :: [] ∧ origin.status.busy = false ∧
    ({ encodeStarted with pending := [.wait [2]] } : State).pending = .wait (2 :: []) :: [] ∧
    ({ encodeStarted with pending := [.wait []] } : State).pending = .wait [] :: [] ∧ encodeStarted.status.busy = true := by
  decide

theorem encodeStarted_inv : encodeStarted.Inv := by decide

theorem decodeStarted_inv : decodeStarted.Inv := by decide

theorem encodeLast_inv : encodeLast.Inv := by decide

theorem witness_WaitEndsAfterTheCommit :
    ({ encodeLast with pending := [.wait []] } : State).Inv ∧ encodeLast.status.busy = true ∧
    ({ encodeLast with pending := [.wait []] } : State).pending = .wait [] :: [] := by decide

theorem witness_ResetEventClearsEveryRegister :
    ({ encodeLast with pending := [.reset [0x210000000000000001#70]] } : State).pending =
      .reset [0x210000000000000001#70] :: [] := by decide

/-- A step from a running command, its last one too, and an accept. -/
theorem witness_EveryStepKeepsTheInvariant :
    encodeStarted.Inv ∧ step encodeStarted = .next (encodeStep encodeStarted) ∧
    encodeLast.Inv ∧ step encodeLast = .next (encodeStep encodeLast) ∧
    ∃ t, step { letterS with pending := [commandEvent .decode] } = .next t :=
  ⟨by decide, rfl, by decide, rfl, _, rfl⟩

/-- A running ENCODE and a running DECODE on track. -/
theorem witness_EveryStepKeepsTheEngineOnTrack :
    encodeStarted.OnTrack ∧ decodeStarted.OnTrack ∧ step encodeStarted = .next (encodeStep encodeStarted) := by
  refine ⟨⟨by decide, fun _ => ⟨fun _ => ⟨by decide +kernel, rfl, rfl, by decide⟩, fun h => ?_⟩⟩,
    ⟨by decide, fun _ => ⟨fun h => ?_, fun _ => rfl⟩⟩, rfl⟩
  · exact absurd h (by decide)
  · exact absurd h (by decide)

theorem witness_ConfigHoldsMaxpForever :
    (⟨1, 0⟩ : Config.Params).legal = true ∧ (⟨16, 0⟩ : Config.Params).legal = true ∧ State.reset.params.legal = true ∧
    step State.reset = .next State.reset := ⟨by decide, by decide, by decide, rfl⟩

/-- An instruction that is no read. -/
theorem witness_EveryInstructionAnswersANextState : ∀ idx, Instr.encode ≠ .rd idx := by decide

/-- An accept, a commit, and a reset of a running command. -/
theorem witness_BusyIsSetByAcceptAndClearedByCommit :
    (nextState (step { origin with pending := [commandEvent .encode] })).map (·.status.busy) = some true ∧
    origin.status.busy = false ∧
    (nextState (step encodeLast)).map (·.status.busy) = some false ∧ encodeLast.status.busy = true ∧
    (nextState (step { encodeLast with pending := [.reset []] })).map (·.status.busy) = some false := by decide +kernel

/-- Events that deliver a transaction: a CMD write of ENCODE, a write of LAT as a record, and the same write as an access at BASE + 32. -/
theorem witness_delivers :
    (commandEvent .encode).delivers 0 (.wr 1#5 1#64) ∧ (Event.bus 0x240000000000000001#70).delivers 0 (.wr 4#5 1#64) ∧
    (Event.access 32 8 (some 1#64)).delivers 0 (.wr 4#5 1#64) :=
  ⟨show decodeBus _ = _ by decide, show decodeBus _ = _ by decide, show accessInstr 0 32 8 (some 1#64) = _ by decide⟩

/-- A dropped write (delivered as witness_delivers says), an accept that clears OVR, and a reset that clears it. -/
theorem witness_OverrunFlagFollowsDroppedWrites :
    (nextState (step { encodeLast with pending := [.bus 0x240000000000000001#70] })).map (·.status.ovr) = some true ∧
    encodeLast.status.ovr = false ∧
    (nextState (step { State.reset with status := ⟨false, true, .none, true⟩, pending := [commandEvent .nop] })).map
      (·.status.ovr) = some false ∧
    (nextState (step { State.reset with status := ⟨false, true, .none, true⟩, pending := [.reset []] })).map
      (·.status.ovr) = some false := by decide

/-- The commands' record of the accept that clears OVR. -/
theorem witness_delivers_nop : (commandEvent .nop).delivers 0 (.wr 1#5 0#64) := show decodeBus _ = _ by decide

theorem witness_IdleBusWriteStoresTheWord : State.reset.status.busy = false := by decide

theorem witness_ReadOnlyAndReservedWritesAreIgnored :
    ((10#5 : Index) ≤ 10#5 ∧ (10#5 : Index) ≤ 15#5) ∧ ((10#5 : Index) ≤ 15#5 ∧ (15#5 : Index) ≤ 15#5) ∧
    (19#5 : Index) ≤ 19#5 ∧ (19#5 : Index) ≤ 31#5 := by decide

theorem witness_BusyWritesAreDropped :
    encodeLast.status.busy = true ∧ (Instr.encchar 0x20#8).isCommand = true ∧ Instr.encode.isCommand = true ∧
    ((4#5 : Index) ≤ 4#5 ∧ (4#5 : Index) ≤ 9#5) ∧ ((4#5 : Index) ≤ 9#5 ∧ (9#5 : Index) ≤ 9#5) ∧
    ((16#5 : Index) ≤ 16#5 ∧ (16#5 : Index) ≤ 18#5) ∧ ((16#5 : Index) ≤ 18#5 ∧ (18#5 : Index) ≤ 18#5) := by decide

theorem witness_WrittenRegisterAliasesNoOther :
    State.reset.status.busy = false ∧ accessOf (regAt 4#5) = .rw ∧ accessOf (regAt 18#5) = .rw ∧ (5#5 : Index) ≠ 4#5 := by decide

theorem witness_CommandWriteRunsTheCommand : decodeCmd 0x1F04#64 = .ok (.encchar 0x1F#8) ∧ decodeCmd 0x1#64 = .ok .encode := by
  decide

theorem witness_IllegalWordFinishesWithInvalidCommand :
    State.reset.status.busy = false ∧ validWord 0x6#64 = false ∧ validWord 0x2004#64 = false ∧
    6#4 ≤ cmdOp 0x6#64 ∧ 6#4 ≤ cmdOp 0xF#64 ∧ cmdRsv0 0x10#64 ≠ 0#4 ∧ cmdRsv1 0x8000000000000001#64 ≠ 0#48 := by decide

theorem witness_NopOnlyFinishes :
    ({ State.reset with status := ⟨false, true, .emptyInput, true⟩ } : State).status.busy = false ∧
    encodeStarted.status.busy = true := by decide

theorem witness_CharacterValuesInvertTheAlphabet :
    valOf 0x73#8 = some 24#5 ∧ ((0x41#8 : Byte) ≤ 0x5A#8) ∧ (0x69#8 : Byte) ∈ [0x61#8, 0x69#8, 0x6C#8, 0x6F#8, 0x00#8] := by decide

theorem witness_EnccharLooksUpTheCharacter :
    State.reset.status.busy = false ∧ (0x1F#8 : Byte).extractLsb' 5 3 = 0#3 ∧ (0x20#8 : Byte).extractLsb' 5 3 ≠ 0#3 := by decide

theorem witness_DeccharLooksUpTheValue :
    State.reset.status.busy = false ∧ valOf 0x7A#8 = some 31#5 ∧ valOf 0x7B#8 = none := by decide

theorem witness_RefineBisectsTheHostsInterval : origin.status.busy = false := by decide

/-- An ENCODE with PREC = 0, and an illegal word. -/
theorem witness_FailedCommandChangesOnlyStatus :
    State.reset.status.busy = false ∧ Instr.encode.isCommand = true ∧
    (nextState (exec .encode State.reset)).map (·.status.err) = some .invalidPrecision ∧
    (nextState (exec (.wr 1#5 0x6#64) State.reset)).map (·.status.err) = some .invalidCommand := by decide +kernel

/-- A well-formed command of each kind on an idle block answers a next state, as does a CMD write of an illegal word. -/
theorem witness_CommandsFinishWithTheirOwnErrors :
    State.reset.status.busy = false ∧ (Instr.encchar 0x1F#8).wellFormed = true ∧ validWord 0x6#64 = false ∧ (4#5 : Index) ≠ 1#5 ∧
    ∀ i ∈ [Instr.nop, .encode, .decode, .refine, .encchar 0x1F#8, .decchar 0#8, .rd 2#5, .wr 1#5 0x6#64, .wr 4#5 0#64],
      ∃ t, exec i State.reset = .next t := by
  refine ⟨by decide, by decide, by decide, by decide, fun i _ => ?_⟩
  obtain ⟨t, h, -⟩ := exec_next i State.reset
  exact ⟨t, h⟩

/-- Vectors F9 (bit 1), F15 (bit 0), F5 (a NaN mid-point) and F12 (a NaN bound). -/
theorem witness_RefinePassesBoundsThrough :
    (Machine.refine 0x401C000000000000#64 0x401C000000000000#64 0x401C000000000000#64).1 = true ∧
    (Machine.refine 0xC056800000000000#64 0xC056800000000000#64 0x4056800000000000#64).1 = false ∧
    isNaN (mid 0xFFF0000000000000#64 0x7FF0000000000000#64) = true ∧ isNaN 0x7FF4000000000001#64 = true := by decide +kernel

/-- Two equal halves of the last place, a subnormal, and a sum that overflows. -/
theorem witness_SumIsRoundedToNearestEven :
    isFinite 0x3FF0000000000001#64 = true ∧ isFinite 0x3CA0000000000000#64 = true ∧
    isFinite (add 0x3FF0000000000001#64 0x3CA0000000000000#64) = true ∧ isFinite 0x0000000000000001#64 = true ∧
    isFinite 0x7FEFFFFFFFFFFFFF#64 = true ∧ isFinite (add 0x7FEFFFFFFFFFFFFF#64 0x7FEFFFFFFFFFFFFF#64) = false := by
  decide +kernel

theorem witness_HalfIsRoundedToNearestEven : isFinite 0x0000000000000003#64 = true ∧ isFinite 0x8000000000000000#64 = true := by
  decide +kernel

theorem witness_InfinitiesAndNaNsFollowTheRules :
    isNaN 0x7FF0000000000001#64 = true ∧ isInf 0x7FF0000000000000#64 = true ∧ isInf 0xFFF0000000000000#64 = true ∧
    signBit 0x7FF0000000000000#64 ≠ signBit 0xFFF0000000000000#64 ∧ isFinite 0x7FEFFFFFFFFFFFFF#64 = true ∧
    isFinite 0x8000000000000000#64 = true ∧ isNaN 0x7FF0000000000000#64 = false ∧ isNaN 0x7FEFFFFFFFFFFFFF#64 = false := by decide +kernel

/-- v = hi = 90.0 on the latitude range, and v = lo. -/
theorem witness_ExactBisectionKeepsTheValueInside :
    isFinite Config.latMax = true ∧ isFinite Config.latMin = true ∧ value Config.latMin < value Config.latMax ∧
    2 * value (mid Config.latMin Config.latMax) = value Config.latMin + value Config.latMax ∧
    isFinite (mid Config.latMin Config.latMax) = true ∧ value Config.latMin ≤ value Config.latMax := by decide +kernel

/-- PREC = 1 and PREC = MAXP, at the origin and at the upper corner. -/
theorem witness_EncodeAcceptLoadsTheEngine :
    (origin.status.busy = false ∧ inRange origin.regs.lat origin.regs.lon = true ∧ 1 ≤ origin.regs.prec.toInt ∧
      origin.regs.prec.toInt ≤ origin.params.maxp) ∧
    (corner.status.busy = false ∧ inRange corner.regs.lat corner.regs.lon = true ∧ 1 ≤ corner.regs.prec.toInt ∧
      corner.regs.prec.toInt ≤ corner.params.maxp) := by decide +kernel

/-- The word just above 90.0; PREC = 0, PREC = 13 and PREC = -1. -/
theorem witness_EncodeRejectsBadOperandsInOrder :
    State.reset.status.busy = false ∧ inRange 0x4056800000000001#64 0#64 = false ∧ inRange 0#64 0#64 = true ∧
    (0#64 : Word).toInt < 1 ∧ (State.reset.params.maxp : Int) < (13#64 : Word).toInt ∧ (0xFFFFFFFFFFFFFFFF#64 : Word).toInt < 1 := by
  decide +kernel

theorem witness_EncodeStepProducesOneBit :
    encodeStarted.status.busy = true ∧ encodeStarted.engine.op = .enc ∧ encodeStarted.engine.i + 1 ≠ 5 * encodeStarted.engine.n := by
  decide

theorem witness_EncodeCommitWritesTheHashBuffer :
    encodeLast.status.busy = true ∧ encodeLast.engine.op = .enc ∧ encodeLast.engine.i + 1 = 5 * encodeLast.engine.n := by decide

/-- Four engine slots and a dropped write between the accept and the last slot. -/
theorem witness_EncodeResultIsTheFunctionUnderEveryInterleaving :
    origin.Inv ∧ origin.status.busy = false ∧ inRange origin.regs.lat origin.regs.lon = true ∧ origin.regs.prec.toInt = ((1 : Nat) : Int) ∧
    1 ≤ origin.params.maxp ∧
    [Event.engine, .bus 0x240000000000000001#70, .engine, .engine, .engine].all Event.plain = true ∧
    [Event.engine, .bus 0x240000000000000001#70, .engine, .engine, .engine].countP Event.isEngine + 1 = 5 * 1 := by
  decide +kernel

theorem witness_LowerPrecisionIsAPrefix : inRange 0#64 0#64 = true ∧ 1 ≤ 6 ∧ 6 < 12 := by decide +kernel

/-- The upper corner, where both equalities hold. -/
theorem witness_EncoderIntervalsContainTheCoordinate :
    inRange Config.latMax Config.lonMax = true ∧ 80 ≤ 80 ∧ value Config.latMax = value (boxAfter Config.latMax Config.lonMax 0).lathi ∧
    value Config.lonMax = value (boxAfter Config.latMax Config.lonMax 0).lonhi := by decide +kernel

theorem witness_DecodeAcceptLoadsTheEngine :
    letterS.status.busy = false ∧ letterS.regs.hlen.toNat ≠ 0 ∧ letterS.regs.hlen.toNat ≤ letterS.params.maxp ∧
    ∀ k, k < letterS.regs.hlen.toNat → ∃ v, valOf (hashByte letterS.regs k) = some v := by
  refine ⟨by decide, by decide, by decide, fun k hk => ⟨24#5, ?_⟩⟩
  obtain rfl : k = 0 := by
    have : letterS.regs.hlen.toNat = 1 := by decide
    omega
  decide

/-- HLEN = 0; HLEN = 13 over MAXP = 12; "a1"; "s" alone, and "s" with HLEN = 1 before a byte that is not looked at. -/
theorem witness_DecodeRejectsBadOperandsInOrder :
    State.reset.status.busy = false ∧ State.reset.regs.hlen.toNat = 0 ∧ State.reset.params.maxp < (13#64 : Word).toNat ∧
    (2#64 : Word).toNat ≠ 0 ∧ (2#64 : Word).toNat ≤ State.reset.params.maxp ∧
    valOf (hashByte { Regs.reset with hash0 := 0x3161#64, hlen := 2#64 } 0) = none ∧
    letterS.regs.hlen.toNat = 1 ∧ valOf (hashByte letterS.regs 0) = some 24#5 ∧
    valOf (hashByte { Regs.reset with hash0 := 0x6173#64, hlen := 1#64 } 0) = some 24#5 := by decide

theorem witness_DecodeStepHalvesOneAxis :
    decodeStarted.status.busy = true ∧ decodeStarted.engine.op = .dec ∧
    decodeStarted.engine.vals[decodeStarted.engine.i / 5]? = some 24#5 ∧
    decodeStarted.engine.i + 1 ≠ 5 * decodeStarted.engine.n := by decide

theorem witness_DecodeCommitWritesTheBox :
    decodeLast.status.busy = true ∧ decodeLast.engine.op = .dec ∧ decodeLast.engine.i + 1 = 5 * decodeLast.engine.n := by decide

theorem witness_DecodeResultIsTheBoxUnderEveryInterleaving :
    letterS.Inv ∧ letterS.status.busy = false ∧ letterS.regs.hlen.toNat = 1 ∧ 1 ≤ letterS.params.maxp ∧ [24#5].length = 1 ∧
    (∀ k, k < 1 → valOf (hashByte letterS.regs k) = [24#5][k]?) ∧
    [Event.engine, .engine, .bus 0x020000000000000000#70, .engine, .engine].all Event.plain = true ∧
    [Event.engine, .engine, .bus 0x020000000000000000#70, .engine, .engine].countP Event.isEngine + 1 = 5 * 1 := by decide

/-- The last k each of these statements covers. -/
theorem witness_BoxHasItsClosedForm : 80 ≤ 80 := by decide

theorem witness_EngineMidpointsAreExact : 94 ≤ 94 := by decide

theorem witness_BoxesNestShrinkAndHoldTheirCentroid : 5 ≤ 80 ∧ 80 ≤ 80 ∧ 15 ≤ 15 := by decide

theorem witness_EncodeThenDecodeContainsTheCoordinate :
    corner.Inv ∧ corner.status.busy = false ∧ inRange corner.regs.lat corner.regs.lon = true ∧
    corner.regs.prec.toInt = ((12 : Nat) : Int) ∧ 12 ≤ corner.params.maxp := by decide +kernel

theorem witness_RunningCommandCommitsAtItsLastStep :
    encodeStarted.Inv ∧ encodeStarted.status.busy = true ∧ 4 < 5 * encodeStarted.engine.n - encodeStarted.engine.i := by decide

/-- Two states that differ in E.VALS alone while ENCODE runs, and two idle ones that differ in E.GRP. -/
theorem witness_EngineInternalsStayInvisible :
    encodeStarted.Alike { encodeStarted with engine := { encodeStarted.engine with vals := [1#5] } } ∧
    State.reset.Alike { State.reset with engine := { Engine.reset with grp := 31#5 } } := by
  refine ⟨⟨rfl, rfl, rfl, rfl, rfl, fun _ => ⟨rfl, rfl, rfl, rfl, fun _ => ⟨rfl, rfl, rfl, rfl⟩, fun h => ?_⟩⟩,
    ⟨rfl, rfl, rfl, rfl, rfl, fun h => ?_⟩⟩
  · exact absurd h (by decide)
  · exact absurd h (by decide)

end Sys2Proof.Tests
end

section
/-! PROOF. Rounding to nearest, ties to even, and the special operands of the bisector's arithmetic (00_scope.md R10). A sum and a
half of finite words are both `withSign neg (roundMagnitude num den)`; what rounding does is said once, of such a word, and each
statement reads off its own case. -/

namespace Sys2Proof.Machine

/-! ## The quotient to the nearest integer -/

theorem roundHalfEven_cases (num den : Nat) :
    roundHalfEven num den = num / den ∧ 2 * (num % den) < den ∨
    roundHalfEven num den = num / den + 1 ∧ den < 2 * (num % den) ∨
    2 * (num % den) = den ∧ roundHalfEven num den % 2 = 0 ∧
      (roundHalfEven num den = num / den ∨ roundHalfEven num den = num / den + 1) := by
  unfold roundHalfEven
  split
  · exact .inl ⟨rfl, ‹_›⟩
  · split
    · exact .inr (.inl ⟨rfl, ‹_›⟩)
    · omega

/-- The rounded multiple of den is at most den / 2 away from num, and even where it is exactly that far. -/
theorem roundHalfEven_error (num den : Nat) (hd : 0 < den) :
    2 * ((num : Int) - (den * roundHalfEven num den : Nat)).natAbs ≤ den ∧
    (2 * ((num : Int) - (den * roundHalfEven num den : Nat)).natAbs = den → roundHalfEven num den % 2 = 0) := by
  have hnum := Nat.div_add_mod num den
  have hr := Nat.mod_lt num hd
  have hsucc := Nat.mul_add_one den (num / den)
  rcases roundHalfEven_cases num den with ⟨hm, _⟩ | ⟨hm, _⟩ | ⟨_, heven, hm | hm⟩ <;> rw [hm] <;> omega

theorem le_dist_of_ne (den : Nat) {j k : Nat} (h : j ≠ k) : den ≤ (((den * j : Nat) : Int) - (den * k : Nat)).natAbs := by
  rcases Nat.lt_or_gt_of_ne h with h | h <;> have := Nat.mul_le_mul_left den (Nat.succ_le_of_lt h) <;>
    rw [Nat.mul_succ] at this <;> omega

/-- No multiple of den lies nearer to num than the rounded one, and at a tie the rounded multiple is even: two multiples are
at least den apart, and the rounded one is at most den / 2 away. -/
theorem roundHalfEven_nearest (num den k : Nat) (hd : 0 < den) :
    ((num : Int) - (den * roundHalfEven num den : Nat)).natAbs ≤ ((num : Int) - (den * k : Nat)).natAbs ∧
    (k ≠ roundHalfEven num den →
      ((num : Int) - (den * roundHalfEven num den : Nat)).natAbs = ((num : Int) - (den * k : Nat)).natAbs →
      roundHalfEven num den % 2 = 0) := by
  obtain ⟨herr, heven⟩ := roundHalfEven_error num den hd
  by_cases hk : k = roundHalfEven num den
  · exact ⟨by rw [hk], fun hne => absurd hk hne⟩
  · have hdist := le_dist_of_ne den hk
    exact ⟨by omega, fun _ htie => heven (by omega)⟩

/-- The rounded quotient lies below an even k exactly when the quotient lies below k - 1/2. -/
theorem roundHalfEven_lt_iff (num den k : Nat) (hd : 0 < den) (hk : k % 2 = 0) :
    roundHalfEven num den < k ↔ 2 * num + den < 2 * (den * k) := by
  have hnum := Nat.div_add_mod num den
  have hr := Nat.mod_lt num hd
  have hsucc := Nat.mul_add_one den (num / den)
  have hc := roundHalfEven_cases num den
  generalize roundHalfEven num den = m at *
  generalize num / den = q at *
  generalize num % den = r at *
  rcases Nat.lt_or_ge q k with h | h
  · rcases Nat.lt_or_ge (q + 1) k with h2 | h2
    · have := Nat.mul_le_mul_left den (show q + 2 ≤ k from h2)
      rw [Nat.mul_add] at this
      omega
    · obtain rfl : k = q + 1 := by omega
      omega
  · have := Nat.mul_le_mul_left den h
    omega

/-! ## The significand and its place -/

/-- The place of the last bit kept: the e of `roundMagnitude`. -/
def roundPlace (num den : Nat) : Nat := Nat.log2 (num / den) - 52

/-- The rounded significand: the m of `roundMagnitude`. -/
def roundSignificand (num den : Nat) : Nat := roundHalfEven num (den * 2 ^ roundPlace num den)

theorem roundMagnitude_eq (num den : Nat) :
    roundMagnitude num den = min (roundPlace num den * 2 ^ 52 + roundSignificand num den) infBits := rfl

theorem lt_roundPlace (num den : Nat) (hd : 0 < den) : num < den * 2 ^ roundPlace num den * 2 ^ 53 := by
  have hlog : num / den < 2 ^ (roundPlace num den + 53) :=
    Nat.lt_log2_self.trans_le (Nat.pow_le_pow_right two_pos (by unfold roundPlace; omega))
  rw [Nat.div_lt_iff_lt_mul hd, pow_add] at hlog
  linarith

theorem roundPlace_le (num den : Nat) (hd : 0 < den) :
    roundPlace num den = 0 ∨ den * 2 ^ roundPlace num den * 2 ^ 52 ≤ num := by
  by_cases hp : roundPlace num den = 0
  · exact .inl hp
  · have hlog : 52 < Nat.log2 (num / den) := by unfold roundPlace at hp; omega
    have hq : num / den ≠ 0 := by
      intro h
      simp [h] at hlog
    have hle : 2 ^ (roundPlace num den + 52) ≤ num / den :=
      (Nat.le_log2 hq).1 (by unfold roundPlace; omega)
    rw [Nat.le_div_iff_mul_le hd, pow_add] at hle
    exact .inr (by linarith)

theorem roundSignificand_le (num den : Nat) (hd : 0 < den) : roundSignificand num den ≤ 2 ^ 53 := by
  have hD : 0 < den * 2 ^ roundPlace num den := by positivity
  have hq := (Nat.div_lt_iff_lt_mul hD).2 (Nat.mul_comm _ (2 ^ 53) ▸ lt_roundPlace num den hd)
  have hc := roundHalfEven_cases num (den * 2 ^ roundPlace num den)
  unfold roundSignificand
  omega

theorem le_roundSignificand (num den : Nat) (hd : 0 < den) :
    roundPlace num den = 0 ∨ 2 ^ 52 ≤ roundSignificand num den := by
  refine (roundPlace_le num den hd).imp_right fun h => ?_
  have hD : 0 < den * 2 ^ roundPlace num den := by positivity
  have hq := (Nat.le_div_iff_mul_le hD).2 (Nat.mul_comm _ (2 ^ 52) ▸ h)
  have hc := roundHalfEven_cases num (den * 2 ^ roundPlace num den)
  unfold roundSignificand
  omega

/-! ## The rounded word -/

theorem isFinite_withSign_iff (neg : Bool) (m : Nat) (h : m ≤ infBits) : isFinite (withSign neg m) = true ↔ m < infBits := by
  refine ⟨fun hf => lt_of_le_of_ne h ?_, isFinite_withSign neg m⟩
  rintro rfl
  cases neg <;> exact absurd hf (by decide)

/-- Rounding overflows exactly from halfway between the greatest finite value and 2^1024 on. -/
theorem roundMagnitude_lt_infBits (num den : Nat) (hd : 0 < den) :
    roundMagnitude num den < infBits ↔ num < den * (2 ^ 2098 - 2 ^ 2044) := by
  have hm1 := roundSignificand_le num den hd
  have hm2 := le_roundSignificand num den hd
  have hlo := roundPlace_le num den hd
  have hhi := lt_roundPlace num den hd
  have hbits : roundMagnitude num den < infBits ↔ roundPlace num den * 2 ^ 52 + roundSignificand num den < infBits := by
    simp [roundMagnitude_eq]
  have hlimit : den * (2 ^ 2098 - 2 ^ 2044) = den * 2 ^ 2044 * (2 ^ 54 - 1) := by
    rw [mul_assoc, Nat.mul_sub_one, ← pow_add]
  rw [hbits, hlimit]
  obtain ⟨L, hL⟩ : ∃ L, L = den * 2 ^ 2044 := ⟨_, rfl⟩
  rw [← hL]
  rcases lt_trichotomy (roundPlace num den) 2045 with h | h | h
  · have hp : den * 2 ^ roundPlace num den ≤ L := by
      rw [hL]
      gcongr
      · norm_num
      · omega
    unfold infBits
    omega
  · have hp : den * 2 ^ roundPlace num den = 2 * L := by
      rw [h, hL, Nat.mul_left_comm, ← pow_succ']
    have hround : roundSignificand num den < 2 ^ 53 ↔ 2 * num + 2 * L < 2 * (2 * L * 2 ^ 53) := by
      rw [roundSignificand, hp]
      exact roundHalfEven_lt_iff num _ _ (hp ▸ by positivity) (by norm_num)
    unfold infBits
    omega
  · have hp : 4 * L ≤ den * 2 ^ roundPlace num den := by
      calc 4 * L = den * 2 ^ 2046 := by rw [hL, Nat.mul_comm 4, mul_assoc, show 4 = 2 ^ 2 from rfl, ← pow_add]
        _ ≤ den * 2 ^ roundPlace num den := by
          gcongr
          · norm_num
          · omega
    unfold infBits
    omega

/-- A rounded word that is finite holds the rounded significand at its place. -/
theorem rounded_finite (neg : Bool) (num den : Nat) (hd : 0 < den)
    (hf : isFinite (withSign neg (roundMagnitude num den)) = true) :
    magnitude (withSign neg (roundMagnitude num den)) = roundSignificand num den * 2 ^ roundPlace num den ∧
    fracField (withSign neg (roundMagnitude num den)) % 2 = roundSignificand num den % 2 := by
  have hlt := (isFinite_withSign_iff neg _ (roundMagnitude_le _ _)).1 hf
  have hbits : roundMagnitude num den = roundPlace num den * 2 ^ 52 + roundSignificand num den := by
    rw [roundMagnitude_eq] at hlt ⊢
    omega
  rw [hbits] at hlt ⊢
  rw [fracField_withSign neg _ hlt.le]
  exact ⟨magnitude_withSign neg _ _ (roundSignificand_le num den hd) (le_roundSignificand num den hd) hlt.le, by omega⟩

/-- A magnitude is a multiple of 2^e units or has its leading bit below the 53 bits that end at 2^e. -/
theorem magnitude_lt_or_dvd (w : Word) (e : Nat) : magnitude w < 2 ^ e * 2 ^ 52 ∨ 2 ^ e ∣ magnitude w := by
  have hf := fracField_lt w
  unfold magnitude
  split
  · exact .inl (hf.trans_le (Nat.le_mul_of_pos_left _ (by positivity)))
  · rcases Nat.lt_or_ge (expField w - 1) e with h | h
    · refine .inl ?_
      calc (2 ^ 52 + fracField w) * 2 ^ (expField w - 1)
          < 2 ^ 53 * 2 ^ (expField w - 1) := Nat.mul_lt_mul_of_pos_right (by omega) (by positivity)
        _ = 2 ^ (expField w - 1 + 1) * 2 ^ 52 := by rw [pow_succ]; ring
        _ ≤ 2 ^ e * 2 ^ 52 := Nat.mul_le_mul_right _ (Nat.pow_le_pow_right two_pos h)
    · exact .inr (dvd_mul_of_dvd_right (pow_dvd_pow 2 h) _)

/-- No magnitude lies nearer to num / den than the rounded one, and at a tie the rounded significand is even. A magnitude off the
rounding grid is farther away than the grid's least point with a full significand. -/
theorem roundMagnitude_nearest (neg : Bool) (num den : Nat) (hd : 0 < den)
    (hf : isFinite (withSign neg (roundMagnitude num den)) = true) (z : Word) :
    let w := withSign neg (roundMagnitude num den)
    ((num : Int) - (den * magnitude w : Nat)).natAbs ≤ ((num : Int) - (den * magnitude z : Nat)).natAbs ∧
    (magnitude z ≠ magnitude w →
      ((num : Int) - (den * magnitude w : Nat)).natAbs = ((num : Int) - (den * magnitude z : Nat)).natAbs →
      fracField w % 2 = 0) := by
  intro w
  obtain ⟨hmag, hfrac⟩ := rounded_finite neg num den hd hf
  rw [hmag, hfrac]
  have hlo := roundPlace_le num den hd
  unfold roundSignificand at *
  generalize roundPlace num den = e at *
  have hgrid : ∀ k, den * (k * 2 ^ e) = den * 2 ^ e * k := fun k => by ring
  have hnear := fun k => roundHalfEven_nearest num (den * 2 ^ e) k (by positivity)
  rw [hgrid]
  by_cases hdvd : 2 ^ e ∣ magnitude z
  · obtain ⟨k, hk⟩ := hdvd
    rw [hk, mul_comm (2 ^ e) k, hgrid]
    exact ⟨(hnear k).1, fun hne => (hnear k).2 fun h => hne (by rw [h])⟩
  · have hz : magnitude z < 2 ^ e * 2 ^ 52 := (magnitude_lt_or_dvd z e).resolve_right hdvd
    have hfar : den * magnitude z < den * 2 ^ e * 2 ^ 52 := by
      rw [mul_assoc]
      exact Nat.mul_lt_mul_of_pos_left hz hd
    have hle : den * 2 ^ e * 2 ^ 52 ≤ num := hlo.resolve_left fun h => hdvd (by simp [h])
    have hbound := (hnear (2 ^ 52)).1
    obtain ⟨B, hB⟩ : ∃ B, B = den * 2 ^ e * 2 ^ 52 := ⟨_, rfl⟩
    rw [← hB] at hfar hle hbound
    constructor <;> intros <;> omega

/-- Values are as near to each other as their magnitudes when the signs agree, and farther when they differ. -/
theorem nearest_of_magnitudes (s p q : Int) (P : Prop) (hs : s = 0 ∧ p = 0 ∨ s < 0 ∧ p ≤ 0 ∨ 0 < s ∧ 0 ≤ p)
    (hle : ((s.natAbs : Int) - p.natAbs).natAbs ≤ ((s.natAbs : Int) - q.natAbs).natAbs)
    (htie : q.natAbs ≠ p.natAbs → ((s.natAbs : Int) - p.natAbs).natAbs = ((s.natAbs : Int) - q.natAbs).natAbs → P) :
    (s - p).natAbs ≤ (s - q).natAbs ∧ (q ≠ p → (s - p).natAbs = (s - q).natAbs → P) :=
  ⟨by omega, fun hne h => htie (by omega) (by omega)⟩

theorem roundMagnitude_zero (den : Nat) (hd : 0 < den) : roundMagnitude 0 den = 0 := by
  simp [roundMagnitude, roundHalfEven, hd]

/-- The word that rounds s / den: no value lies nearer, and at a tie its significand is even. -/
theorem rounded_value_nearest (neg : Bool) (s : Int) (den : Nat) (hd : 0 < den)
    (hneg : if neg then s ≤ 0 else 0 ≤ s)
    (hf : isFinite (withSign neg (roundMagnitude s.natAbs den)) = true) (z : Word) :
    let w := withSign neg (roundMagnitude s.natAbs den)
    (s - den * value w).natAbs ≤ (s - den * value z).natAbs ∧
    (value z ≠ value w → (s - den * value w).natAbs = (s - den * value z).natAbs → fracField w % 2 = 0) := by
  intro w
  have habs : ∀ v : Word, (den * value v).natAbs = den * magnitude v := fun v => by
    rw [Int.natAbs_mul, Int.natAbs_natCast, value_natAbs]
  have hsign : s = 0 ∧ den * value w = 0 ∨ s < 0 ∧ den * value w ≤ 0 ∨ 0 < s ∧ 0 ≤ den * value w := by
    have hv : value w = if neg then -(magnitude w : Int) else (magnitude w : Int) :=
      value_withSign neg _ (roundMagnitude_le _ _)
    have hpos : (0 : Int) ≤ den * magnitude w := by positivity
    by_cases hs : s = 0
    · have hw : w = withSign neg 0 := by rw [← roundMagnitude_zero den hd, ← Int.natAbs_zero, ← hs]
      refine .inl ⟨hs, ?_⟩
      rw [hw]
      cases neg <;> simp [show value (withSign false 0) = 0 by decide, show value (withSign true 0) = 0 by decide]
    · cases neg
      · simp only [Bool.false_eq_true, if_false] at hv hneg
        rw [hv]
        omega
      · simp only [if_true] at hv hneg
        rw [hv, Int.mul_neg]
        omega
  obtain ⟨hle, htie⟩ := roundMagnitude_nearest neg s.natAbs den hd hf z
  rw [← habs, ← habs] at hle htie
  obtain ⟨hle', htie'⟩ := nearest_of_magnitudes s _ (den * value z) (fracField w % 2 = 0) hsign hle
    fun hne => htie fun h => hne (by rw [habs, habs, h])
  exact ⟨hle', fun hne => htie' fun h => hne (Int.eq_of_mul_eq_mul_left (by omega) h)⟩

/-! ## Sums and halves of finite words -/

/-- The sign of a finite sum: an exact zero is positive unless both operands are negative (zeros, then). -/
def sumSign (x y : Word) : Bool :=
  if value x + value y = 0 then signBit x && signBit y else decide (value x + value y < 0)

theorem add_finite (x y : Word) (hx : isFinite x = true) (hy : isFinite y = true) :
    add x y = withSign (sumSign x y) (roundMagnitude (value x + value y).natAbs 1) := by
  obtain ⟨nx, ix⟩ := not_nan_of_finite hx
  obtain ⟨ny, iy⟩ := not_nan_of_finite hy
  by_cases hz : value x + value y = 0
  · simp [add, sumSign, nx, ix, ny, iy, hz, roundMagnitude_zero]
  · simp [add, sumSign, nx, ix, ny, iy, hz]

theorem half_finite (x : Word) (hx : isFinite x = true) :
    half x = withSign (signBit x) (roundMagnitude (value x).natAbs 2) := by
  obtain ⟨nx, ix⟩ := not_nan_of_finite hx
  simp [half, nx, ix, value_natAbs]

theorem sumSign_spec (x y : Word) : if sumSign x y then value x + value y ≤ 0 else 0 ≤ value x + value y := by
  unfold sumSign
  by_cases hz : value x + value y = 0
  · simp [hz]
  · by_cases hn : value x + value y < 0
    · simp [hz, hn, hn.le]
    · simp [hz, hn, not_lt.1 hn]

theorem signBit_spec (x : Word) : if signBit x then value x ≤ 0 else 0 ≤ value x := by
  unfold value
  cases signBit x <;> simp

/-- Settles O36: the sum is the word that rounds the exact sum. -/
theorem sumIsRoundedToNearestEven : Obligations.SumIsRoundedToNearestEven := by
  intro x y hx hy
  have hfin : isFinite (add x y) = true ↔ (value x + value y).natAbs < 2 ^ 2098 - 2 ^ 2044 := by
    rw [add_finite x y hx hy, isFinite_withSign_iff _ _ (roundMagnitude_le _ _),
      roundMagnitude_lt_infBits _ 1 one_pos, Nat.one_mul]
  have hnear := rounded_value_nearest (sumSign x y) (value x + value y) 1 one_pos (sumSign_spec x y)
  have hsign := signBit_withSign (sumSign x y) _ (roundMagnitude_le (value x + value y).natAbs 1)
  have hnan := isNaN_withSign (sumSign x y) _ (roundMagnitude_le (value x + value y).natAbs 1)
  rw [← add_finite x y hx hy] at hnear hsign hnan
  simp only [Nat.cast_one, one_mul] at hnear
  refine ⟨fun hf z _ => hnear hf z, hfin, hnan, fun hlt => ?_, fun hgt => ?_, fun hz => ?_⟩
  · simp [hsign, sumSign, hlt.ne, hlt]
  · simp [hsign, sumSign, hgt.ne', hgt.le]
  · simp [hsign, sumSign, hz]

/-- Settles O37: the half is the word that rounds the exact half, which is below the overflow limit. -/
theorem halfIsRoundedToNearestEven : Obligations.HalfIsRoundedToNearestEven := by
  intro x hx
  have hlimit : (value x).natAbs < 2 * (2 ^ 2098 - 2 ^ 2044) := by
    rw [value_natAbs]
    have hlt := magnitude_finite_lt x hx
    have hpow : 2 ^ 2098 = 2 ^ 54 * 2 ^ 2044 := by rw [← pow_add]
    generalize 2 ^ 2044 = L at *
    omega
  have hfin : isFinite (half x) = true := by
    rw [half_finite x hx]
    exact isFinite_withSign _ _ ((roundMagnitude_lt_infBits _ 2 two_pos).2 hlimit)
  have hnear := rounded_value_nearest (signBit x) (value x) 2 two_pos (signBit_spec x)
  have hsign := signBit_withSign (signBit x) _ (roundMagnitude_le (value x).natAbs 2)
  rw [← half_finite x hx] at hnear hsign
  exact ⟨hfin, hsign, fun z _ => hnear hfin z⟩

/-! ## Infinities and NaNs -/

theorem not_nan_of_inf {w : Word} (h : isInf w = true) : isNaN w = false ∧ isFinite w = false := by
  rcases kind_cases w with ⟨_, h2, _⟩ | ⟨h1, _, h3⟩ | ⟨_, h2, _⟩
  · simp [h] at h2
  · exact ⟨h1, h3⟩
  · simp [h] at h2

theorem add_nan (x y : Word) (h : isNaN x = true ∨ isNaN y = true) : add x y = Config.cnan := by
  rcases h with h | h <;> simp [add, h]

theorem add_inf_inf (x y : Word) (hx : isInf x = true) (hy : isInf y = true) :
    add x y = if signBit x = signBit y then x else Config.cnan := by
  by_cases hs : signBit x = signBit y <;> simp [add, hx, hy, hs, (not_nan_of_inf hx).1, (not_nan_of_inf hy).1]

theorem add_inf_finite (x y : Word) (hx : isInf x = true) (hy : isFinite y = true) : add x y = x ∧ add y x = x := by
  obtain ⟨ny, iy⟩ := not_nan_of_finite hy
  simp [add, hx, iy, ny, (not_nan_of_inf hx).1]

theorem half_nan (x : Word) (h : isNaN x = true) : half x = Config.cnan := by simp [half, h]

theorem half_inf (x : Word) (h : isInf x = true) : half x = x := by simp [half, h, (not_nan_of_inf h).1]

/-- A word that is no NaN and has the value of an infinity is that infinity. -/
theorem eq_of_value_eq_inf (x y : Word) (hx : isNaN x = false) (hy : isInf y = true) (h : value x = value y) : x = y := by
  have hmy := magnitude_inf y hy
  have hmx : magnitude x = 2 ^ 2098 := by rw [← value_natAbs, h, value_natAbs, hmy]
  have hs : signBit x = signBit y := by
    have hpos : 0 < 2 ^ 2098 := by positivity
    unfold value at h
    rw [hmx, hmy] at h
    generalize 2 ^ 2098 = N at *
    cases hsx : signBit x <;> cases hsy : signBit y <;> simp [hsx, hsy] at h ⊢ <;> omega
  have hix := isInf_of_magnitude x hx hmx
  simp only [isInf, Bool.and_eq_true, beq_iff_eq] at hix hy
  exact word_ext x y hs (hix.1.trans hy.1.symm) (hix.2.trans hy.2.symm)

/-- The infinities bound the values of all words that are no NaN. -/
theorem value_between_infs (x : Word) (hx : isNaN x = false) :
    value 0xFFF0000000000000#64 ≤ value x ∧ value x ≤ value 0x7FF0000000000000#64 := by
  rw [value_posInf, value_negInf]
  exact value_bounds x hx

/-- Settles O38: each case of the sum, the half and the comparison by its own lemma. -/
theorem infinitiesAndNaNsFollowTheRules : Obligations.InfinitiesAndNaNsFollowTheRules := by
  intro x y
  refine ⟨fun h => ⟨add_nan x y h, h.elim (ge_nan_left x y) (ge_nan_right x y)⟩,
    fun hx hy hs => (add_inf_inf x y hx hy).trans (if_neg hs),
    fun hx hy hs => (add_inf_inf x y hx hy).trans (if_pos hs),
    add_inf_finite x y, half_nan x, half_inf x,
    fun hx hy => ge_iff x y (not_nan_of_finite hx).1 (not_nan_of_finite hy).1, fun hx hy => ?_⟩
  have nPos : isNaN 0x7FF0000000000000#64 = false := by decide
  have nNeg : isNaN 0xFFF0000000000000#64 = false := by decide
  rw [ge_iff _ y nPos hy, ge_iff x _ hx nNeg, ge_iff x _ hx nPos, ge_iff _ y nNeg hy]
  obtain ⟨hxlo, hxhi⟩ := value_between_infs x hx
  obtain ⟨hylo, hyhi⟩ := value_between_infs y hy
  exact ⟨hyhi, hxlo,
    ⟨fun h => eq_of_value_eq_inf x _ hx (by decide) (hxhi.antisymm h), fun h => h ▸ le_rfl⟩,
    ⟨fun h => eq_of_value_eq_inf y _ hy (by decide) (h.antisymm hylo), fun h => h ▸ le_rfl⟩⟩

end Sys2Proof.Machine
end

section
/-! PROOF. The state (10_state.md): the register window and STATUS as words, what every step keeps of the machine, what it makes of the
flags BUSY and OVR, and that the engine's internal fields are invisible to the host. -/

namespace Sys2Proof.Machine

/-! ## Stores and the window -/

/-- A store to a RW register is what that register reads next, and no other register's reading changes. -/
theorem readReg_storeReg (s : State) (v : Word) (r q : Reg) :
    readReg { s with regs := storeReg s.regs v r } q = if q = r ∧ accessOf r = .rw then v else readReg s q := by
  cases r <;> cases q <;> rfl

/-- A register has one index, the reserved words apart. -/
theorem indexOf_regAt : ∀ idx : Index, regAt idx ≠ .reserved → indexOf (regAt idx) = idx := by decide

theorem accessOf_regAt_eq_wo_iff : ∀ idx : Index, accessOf (regAt idx) = .wo ↔ idx = 1#5 := by decide

theorem regAt_ne_of_rw {idx other : Index} (h : accessOf (regAt idx) = .rw) (hne : other ≠ idx) :
    regAt other ≠ regAt idx := by
  intro heq
  have hidx : regAt idx ≠ .reserved := fun hr => by simp [hr, accessOf] at h
  exact hne (by rw [← indexOf_regAt other (heq ▸ hidx), heq, indexOf_regAt idx hidx])

theorem execWr_rw_idle (idx : Index) (v : Word) (s : State) (hb : s.status.busy = false)
    (h : accessOf (regAt idx) = .rw) :
    exec (.wr idx v) s = .next { s with regs := storeReg s.regs v (regAt idx) } := by
  show execWr idx v s = _
  simp only [execWr, h, storeOrDrop_idle _ _ s hb]

theorem execWr_ignored (idx : Index) (v : Word) (s : State)
    (h : accessOf (regAt idx) = .ro ∨ accessOf (regAt idx) = .rsv) : exec (.wr idx v) s = .next s := by
  show execWr idx v s = _
  rcases h with h | h <;> simp only [execWr, h]

/-- Settles O25: the store is read back at its own register, and no other index names that register. -/
theorem writtenRegisterAliasesNoOther : Obligations.WrittenRegisterAliasesNoOther := by
  intro s idx other v hb hrw
  refine ⟨_, execWr_rw_idle idx v s hb hrw, ?_, fun hne => ?_⟩
  · rw [readReg_storeReg, if_pos ⟨rfl, hrw⟩]
  · rw [readReg_storeReg, if_neg fun h => regAt_ne_of_rw hrw hne h.1]

theorem accessOf_regAt_ro_or_rsv : ∀ idx : Index,
    (idx = 0#5 ∨ idx = 2#5 ∨ idx = 3#5 ∨ (10#5 ≤ idx ∧ idx ≤ 15#5) ∨ 19#5 ≤ idx) →
    accessOf (regAt idx) = .ro ∨ accessOf (regAt idx) = .rsv := by decide

theorem regAt_reserved : ∀ idx : Index, 19#5 ≤ idx → regAt idx = .reserved := by decide

/-- Settles O23: the listed indices are those of the RO and reserved classes, whose writes are ignored. -/
theorem readOnlyAndReservedWritesAreIgnored : Obligations.ReadOnlyAndReservedWritesAreIgnored := by
  intro s idx v
  refine ⟨fun h => execWr_ignored idx v s (accessOf_regAt_ro_or_rsv idx h), fun h => ?_⟩
  show execRd idx s = _
  rw [execRd, regAt_reserved idx h]
  rfl

/-! ## The STATUS word -/

/-- Bit by bit, which field of STATUS is read where (10_state.md R22). -/
theorem getLsbD_statusWord (f : Status) (i : Nat) :
    (statusWord f).getLsbD i =
      if i = 0 then f.busy
      else if i = 1 then f.done
      else if 4 ≤ i ∧ i < 8 then (errorNumber f.err).getLsbD (i - 4)
      else if i = 8 then f.ovr
      else false := by
  rcases Nat.lt_or_ge i 9 with h | h
  · interval_cases i <;> simp [statusWord]
  · have herr : (errorNumber f.err).getLsbD (i - 4) = false := BitVec.getLsbD_of_ge _ _ (by omega)
    have hi : i ≠ 0 ∧ i ≠ 1 ∧ ¬i < 8 ∧ i ≠ 8 ∧ i - 1 ≠ 0 ∧ i - 8 ≠ 0 := by omega
    simp [statusWord, herr, hi]

/-- Settles O21: each field is read off the bits it was placed at, where no other field has a bit. -/
theorem statusWordHasTheListedFields : Obligations.StatusWordHasTheListedFields := by
  intro f
  refine ⟨getLsbD_statusWord f 0, getLsbD_statusWord f 1, ?_, ?_, getLsbD_statusWord f 8, ?_⟩
  · ext i hi
    have h0 : 2 + i ≠ 1 ∧ ¬4 ≤ 2 + i ∧ 2 + i ≠ 8 := by omega
    simp [getLsbD_statusWord, h0]
  · trans errorNumber f.err
    · ext i hi
      have h0 : 4 + i ≠ 1 ∧ 4 + i < 8 := by omega
      simp [getLsbD_statusWord, h0, BitVec.getLsbD_eq_getElem hi]
    · cases f.err <;> rfl
  · ext i hi
    have h0 : 9 + i ≠ 1 ∧ ¬9 + i < 8 ∧ 9 + i ≠ 8 := by omega
    simp [getLsbD_statusWord, h0]

/-! ## Reset values (10_state.md R49) -/

theorem readReg_reset (r : Reg) (h : r ≠ .config) : readReg State.reset r = 0#64 := by
  cases r with
  | config => exact absurd rfl h
  | status => decide
  | _ => rfl

/-- Settles O11: every register but CONFIG reads 0 in the reset state, and CONFIG has index 0 alone. -/
theorem resetLeavesTheListedValues : Obligations.ResetLeavesTheListedValues := by
  have hconfig : ∀ idx : Index, idx ≠ 0#5 → regAt idx ≠ .config := by decide
  exact ⟨by decide, fun idx h => readReg_reset _ (hconfig idx h), by decide⟩

/-! ## Engine ranges -/

theorem inv_of_idle {s : State} (hp : s.params.legal = true) (hb : s.status.busy = false) : s.Inv :=
  ⟨hp, fun h => by simp [hb] at h, fun h => by simp [hb] at h⟩

/-- A bit shifted into a group of fewer than 2^k values leaves one of fewer than 2^(k+1). -/
theorem shiftIn_lt (g : Quintet) (b : Bool) (k : Nat) (hg : g.toNat < 2 ^ k) :
    ((g <<< 1) ||| (BitVec.ofBool b).setWidth 5).toNat < 2 ^ (k + 1) := by
  rw [BitVec.toNat_or]
  refine Nat.or_lt_two_pow ?_ ?_
  · rw [BitVec.toNat_shiftLeft, Nat.shiftLeft_eq]
    exact (Nat.mod_le _ _).trans_lt (by omega)
  · have hb : ((BitVec.ofBool b).setWidth 5).toNat ≤ 1 := by cases b <;> decide
    have : 1 < 2 ^ (k + 1) := Nat.one_lt_two_pow k.succ_ne_zero
    omega

/-- A bit short of the last leaves the engine in range: the group grows by the bit, or returns to 0 with a character's last. -/
theorem encodeAdvance_inRange {maxp : Nat} {e : Engine} (h : engineInRange maxp e) (hop : e.op = .enc)
    (hn : e.i + 1 ≠ 5 * e.n) : engineInRange maxp (encodeAdvance e) := by
  obtain ⟨hpos, hmax, hi, hgrp, -⟩ := h
  refine ⟨by simpa, by simpa, by simp; omega, fun _ => ?_, fun hd => by simp [hop] at hd⟩
  rw [encodeAdvance_grp, encodeAdvance_i]
  split
  · exact Nat.two_pow_pos _
  · rw [show (e.i + 1) % 5 = e.i % 5 + 1 by omega]
    exact shiftIn_lt _ _ _ (hgrp hop)

theorem decodeAdvance_inRange {maxp : Nat} {e : Engine} (h : engineInRange maxp e) (hop : e.op = .dec)
    (hn : e.i + 1 ≠ 5 * e.n) : engineInRange maxp (decodeAdvance e) := by
  obtain ⟨hpos, hmax, hi, -, hvals⟩ := h
  exact ⟨hpos, hmax, by simp; omega, fun he => by simp [hop] at he, fun _ => hvals hop⟩

theorem precisionLegal_toNat {p : Int} {maxp : Nat} (h : precisionLegal p maxp = true) :
    1 ≤ p.toNat ∧ p.toNat ≤ maxp := by
  simp only [precisionLegal, Bool.and_eq_true, decide_eq_true_eq] at h
  omega

theorem engineForEncode_inRange (e : Engine) (lat lon : Word) {p : Int} {maxp : Nat}
    (h : precisionLegal p maxp = true) : engineInRange maxp (engineForEncode e lat lon p.toNat) := by
  obtain ⟨hpos, hmax⟩ := precisionLegal_toNat h
  exact ⟨hpos, hmax, by simp; omega, fun _ => Nat.one_pos, fun hd => by simp at hd⟩

theorem engineForDecode_inRange (e : Engine) {r : Regs} {n maxp : Nat} {vals : List Quintet} (h0 : n ≠ 0)
    (hmax : n ≤ maxp) (hv : valuesOf (hashString r n) = some vals) :
    engineInRange maxp (engineForDecode e n vals) := by
  have hlen := (valuesOf_spec _ _ hv).1
  rw [hashString_length] at hlen
  exact ⟨Nat.pos_of_ne_zero h0, hmax, by simp; omega, fun he => by simp at he, fun _ => hlen⟩

/-! ## Every step keeps the invariant -/

theorem engineStep_inv {s : State} (h : s.Inv) : (engineStep s).Inv := by
  have ⟨hp, hbd, hrun⟩ := h
  rcases engineStep_cases s with ⟨-, hs⟩ | ⟨hb, hop, ⟨hn, hs⟩ | ⟨-, hs⟩⟩ | ⟨hb, hop, ⟨hn, hs⟩ | ⟨-, hs⟩⟩ <;> rw [hs]
  · exact h
  · exact ⟨hp, hbd, fun _ => ⟨(hrun hb).1, encodeAdvance_inRange (hrun hb).2 hop hn⟩⟩
  · exact inv_of_idle hp rfl
  · exact ⟨hp, hbd, fun _ => ⟨(hrun hb).1, decodeAdvance_inRange (hrun hb).2 hop hn⟩⟩
  · exact inv_of_idle hp rfl

/-- An accepted command leaves an idle block, or a running engine in range. -/
theorem exec_command_idle_inv {c : Instr} (hc : c.isCommand = true) {s t : State} (h : s.Inv)
    (hb : s.status.busy = false) (hx : exec c s = .next t) : t.Inv := by
  rcases exec_command_idle c hc s t hb hx with
    ⟨code, regs, rfl⟩ | ⟨-, -, hprec, rfl⟩ | ⟨-, n, vals, -, h0, hmax, hv, rfl⟩
  · exact inv_of_idle h.1 rfl
  · exact ⟨h.1, by simp, fun _ => ⟨rfl, engineForEncode_inRange _ _ _ hprec⟩⟩
  · exact ⟨h.1, by simp, fun _ => ⟨rfl, engineForDecode_inRange _ h0 hmax hv⟩⟩

theorem exec_inv {i : Instr} {s t : State} (h : s.Inv) (hx : exec i s = .next t) : t.Inv := by
  rcases exec_cases i s t hx with
    ⟨v, rfl⟩ | rfl | ⟨-, rfl⟩ | ⟨-, r, v, rfl⟩ | ⟨-, rfl⟩ | ⟨hb, c, hc, -, hcx⟩
  · exact h
  · exact h
  · exact h
  · exact h
  · exact inv_of_idle h.1 rfl
  · exact exec_command_idle_inv hc h hb hcx

/-- Settles O14, by what a step can be: the engine's, a reset, a turn of WAIT, or a bus transaction. -/
theorem everyStepKeepsTheInvariant : Obligations.EveryStepKeepsTheInvariant := by
  intro s t h hstep
  rcases step_cases s t hstep with
    ⟨-, rfl⟩ | ⟨rest, -, rfl⟩ | ⟨_, rest, -, rfl⟩ | ⟨_, rest, q, -, rfl⟩ | ⟨e, rest, i, -, -, -, -, hx⟩
  · exact engineStep_inv h
  · exact engineStep_inv (s := { s with pending := rest }) h
  · exact inv_of_idle h.1 rfl
  · exact h
  · exact exec_inv (s := { s with pending := rest }) h hx

/-- Settles O13: the reset state is idle and its parameters are legal. -/
theorem resetMeetsTheInvariant : Obligations.ResetMeetsTheInvariant :=
  have hinv : State.reset.Inv := inv_of_idle (by decide) rfl
  ⟨hinv, hinv, fun hb => absurd hb (by decide)⟩

/-! ## The parameters -/

theorem engineStep_params (s : State) : (engineStep s).params = s.params := by
  rcases engineStep_cases s with ⟨-, hs⟩ | ⟨-, -, ⟨-, hs⟩ | ⟨-, hs⟩⟩ | ⟨-, -, ⟨-, hs⟩ | ⟨-, hs⟩⟩ <;> rw [hs] <;> rfl

theorem exec_params {i : Instr} {s t : State} (hx : exec i s = .next t) : t.params = s.params := by
  obtain ⟨u, hu, hp, -⟩ := exec_next i s
  cases hu.symm.trans hx
  exact hp

theorem step_params {s t : State} (hstep : step s = .next t) : t.params = s.params := by
  rcases step_cases s t hstep with
    ⟨-, rfl⟩ | ⟨rest, -, rfl⟩ | ⟨_, rest, -, rfl⟩ | ⟨_, rest, q, -, rfl⟩ | ⟨e, rest, i, -, -, -, -, hx⟩
  · exact engineStep_params s
  · exact engineStep_params { s with pending := rest }
  · rfl
  · rfl
  · exact exec_params (s := { s with pending := rest }) hx

/-- A legal MAXP fits the eight bits of its field (00_scope.md R5, 10_state.md R20). -/
theorem configWord_legal {p : Config.Params} (h : p.legal = true) :
    (configWord p).toNat = p.maxp ∧ (configWord p).extractLsb' 8 56 = 0#56 := by
  simp only [Config.Params.legal, Bool.and_eq_true, decide_eq_true_eq] at h
  have hle : p.maxp ≤ 16 := h.2
  refine ⟨?_, ?_⟩
  · rw [configWord, BitVec.toNat_setWidth, BitVec.toNat_ofNat]
    omega
  · ext i hi
    simp [configWord]

/-- Settles O16: no step changes the parameters, and CONFIG is read from them. -/
theorem configHoldsMaxpForever : Obligations.ConfigHoldsMaxpForever := by
  intro s t hlegal hstep
  have hp := step_params hstep
  have hread : readReg t (regAt 0#5) = configWord s.params := congrArg configWord hp
  rw [hread]
  exact ⟨hp, configWord_legal hlegal⟩

/-! ## What a step makes of STATUS -/

/-- A command word that starts the engine, on the operands the registers hold (42_encode.md R143, 43_decode.md R163). -/
def StartsEngine (s : State) (w : Word) : Prop :=
  (decodeCmd w = .ok .encode ∧ inRange s.regs.lat s.regs.lon = true ∧
    1 ≤ s.regs.prec.toInt ∧ s.regs.prec.toInt ≤ s.params.maxp) ∨
  (decodeCmd w = .ok .decode ∧ s.regs.hlen.toNat ≠ 0 ∧ s.regs.hlen.toNat ≤ s.params.maxp ∧
    ∀ k, k < s.regs.hlen.toNat → ∃ v, valOf (hashByte s.regs k) = some v)

/-- What an accepted CMD write leaves in STATUS: a finished command, or one under way with valid operands. -/
def Accepted (s : State) (w : Word) (f : Status) : Prop :=
  (∃ code, f = ⟨false, true, code, false⟩) ∨ (f = ⟨true, false, .none, false⟩ ∧ StartsEngine s w)

theorem precisionLegal_iff (p : Int) (maxp : Nat) : precisionLegal p maxp = true ↔ 1 ≤ p ∧ p ≤ maxp := by
  simp [precisionLegal]

/-- The characters of a string that has values are of the alphabet. -/
theorem valOf_of_valuesOf_hashString {r : Regs} {n : Nat} {vals : List Quintet}
    (h : valuesOf (hashString r n) = some vals) (k : Nat) (hk : k < n) : ∃ v, valOf (hashByte r k) = some v := by
  obtain ⟨hlen, hget⟩ := valuesOf_spec _ _ h
  rw [hashString_length] at hlen
  have hv := hget k
  rw [hashString_getElem? r n k hk] at hv
  exact ⟨vals[k], by simpa [hlen, hk] using hv⟩

theorem writeCommand_idle {s t : State} {w : Word} (hb : s.status.busy = false) (hx : writeCommand w s = .next t) :
    Accepted s w t.status := by
  rw [writeCommand_eq] at hx
  cases hd : decodeCmd w with
  | error e =>
    simp only [hd, execInvalid_idle s hb] at hx
    cases hx
    exact .inl ⟨.invalidCommand, rfl⟩
  | ok c =>
    simp only [hd] at hx
    rcases exec_command_idle c (decodeCmd_isCommand hd) s t hb hx with
      ⟨code, regs, rfl⟩ | ⟨rfl, hr, hp, rfl⟩ | ⟨rfl, n, vals, rfl, h0, hmax, hv, rfl⟩
    · exact .inl ⟨code, rfl⟩
    · exact .inr ⟨rfl, .inl ⟨hd, hr, (precisionLegal_iff _ _).1 hp⟩⟩
    · exact .inr ⟨rfl, .inr ⟨hd, h0, hmax, valOf_of_valuesOf_hashString hv⟩⟩

/-- What a bus transaction makes of STATUS: nothing, OVR for a dropped write, or what an accepted CMD write leaves. -/
theorem exec_transaction_status {i : Instr} {s t : State} (hi : i.isCommand = false) (hx : exec i s = .next t) :
    t.status = s.status ∨
    (s.status.busy = true ∧ (∃ idx v, i = .wr idx v ∧ (accessOf (regAt idx) = .wo ∨ accessOf (regAt idx) = .rw)) ∧
      t.status = statusOverrun s.status) ∨
    (s.status.busy = false ∧ ∃ w, i = .wr 1#5 w ∧ Accepted s w t.status) := by
  cases i with
  | rd idx => cases hx; exact .inl rfl
  | wr idx v =>
    cases hb : s.status.busy with
    | true =>
      change execWr idx v s = _ at hx
      rw [execWr_busy idx v s hb] at hx
      cases hx
      split
      · exact .inr (.inl ⟨rfl, ⟨idx, v, rfl, ‹_›⟩, rfl⟩)
      · exact .inl rfl
    | false =>
      cases ha : accessOf (regAt idx) with
      | wo =>
        obtain rfl := (accessOf_regAt_eq_wo_iff idx).1 ha
        exact .inr (.inr ⟨rfl, v, rfl, writeCommand_idle hb hx⟩)
      | rw => rw [execWr_rw_idle idx v s hb ha] at hx; cases hx; exact .inl rfl
      | ro => rw [execWr_ignored idx v s (.inl ha)] at hx; cases hx; exact .inl rfl
      | rsv => rw [execWr_ignored idx v s (.inr ha)] at hx; cases hx; exact .inl rfl
  | nop | encode | decode | refine | encchar | decchar => simp [Instr.isCommand] at hi

/-- An engine step changes STATUS at a command's last bit alone, and then finishes it. -/
theorem engineStep_status (s : State) :
    (engineStep s).status = s.status ∨
    (s.status.busy = true ∧ s.engine.i + 1 = 5 * s.engine.n ∧ (engineStep s).status = statusFinished .none s.status) := by
  rcases engineStep_cases s with ⟨-, hs⟩ | ⟨hb, -, ⟨-, hs⟩ | ⟨hn, hs⟩⟩ | ⟨hb, -, ⟨-, hs⟩ | ⟨hn, hs⟩⟩ <;> rw [hs]
  · exact .inl rfl
  · exact .inl rfl
  · exact .inr ⟨hb, hn, rfl⟩
  · exact .inl rfl
  · exact .inr ⟨hb, hn, rfl⟩

/-- The ways a step can treat STATUS, each with its event: nothing, a commit, a reset, a dropped write, an accepted CMD write. -/
inductive StatusStep (s : State) (f : Status) : Prop
  | same (h : f = s.status)
  | commit (hb : s.status.busy = true) (hlast : s.engine.i + 1 = 5 * s.engine.n)
      (hevent : s.pending = [] ∨ ∃ rest, s.pending = .engine :: rest) (h : f = statusFinished .none s.status)
  | reset (hevent : ∃ arriving rest, s.pending = .reset arriving :: rest) (h : f = Status.reset)
  | dropped (hb : s.status.busy = true)
      (hevent : ∃ e rest idx v, s.pending = e :: rest ∧ e.delivers s.params.base (.wr idx v) ∧
        (accessOf (regAt idx) = .wo ∨ accessOf (regAt idx) = .rw))
      (h : f = statusOverrun s.status)
  | accepted (hb : s.status.busy = false) (e : Event) (rest : List Event) (w : Word) (hevent : s.pending = e :: rest)
      (hd : e.delivers s.params.base (.wr 1#5 w)) (h : Accepted s w f)

theorem step_status {s t : State} (hstep : step s = .next t) : StatusStep s t.status := by
  rcases step_cases s t hstep with
    ⟨hp, rfl⟩ | ⟨rest, hp, rfl⟩ | ⟨arriving, rest, hp, rfl⟩ | ⟨_, _, _, _, rfl⟩ | ⟨e, rest, i, hp, hi, hd, -, hx⟩
  · rcases engineStep_status s with h | ⟨hb, hn, h⟩
    · exact .same h
    · exact .commit hb hn (.inl hp) h
  · rcases engineStep_status { s with pending := rest } with h | ⟨hb, hn, h⟩
    · exact .same h
    · exact .commit hb hn (.inr ⟨rest, hp⟩) h
  · exact .reset ⟨arriving, rest, hp⟩ rfl
  · exact .same rfl
  · rcases exec_transaction_status hi hx with h | ⟨hb, ⟨idx, v, rfl, ha⟩, h⟩ | ⟨hb, w, rfl, h⟩
    · exact .same h
    · exact .dropped hb ⟨e, rest, idx, v, hp, hd, ha⟩ h
    · exact .accepted hb e rest w hp hd h

theorem step_busy_set {s t : State} (hstep : step s = .next t) (hs : s.status.busy = false) (ht : t.status.busy = true) :
    ∃ e rest w, s.pending = e :: rest ∧ e.delivers s.params.base (.wr 1#5 w) ∧
      step s = exec (.wr 1#5 w) { s with pending := rest } ∧ StartsEngine s w := by
  rcases step_status hstep with h | ⟨hb, -, -, h⟩ | ⟨-, h⟩ | ⟨hb, -, h⟩ | ⟨-, e, rest, w, hp, hd, ⟨code, h⟩ | ⟨-, hw⟩⟩
  · simp [h, hs] at ht
  · simp [hs] at hb
  · simp [h, Status.reset] at ht
  · simp [hs] at hb
  · simp [h] at ht
  · exact ⟨e, rest, w, hp, hd, step_delivers s e rest _ hp hd, hw⟩

theorem step_busy_cleared {s t : State} (hstep : step s = .next t) (hs : s.status.busy = true)
    (ht : t.status.busy = false) :
    (∃ arriving rest, s.pending = .reset arriving :: rest) ∨
    (s.engine.i + 1 = 5 * s.engine.n ∧ t.status = ⟨false, true, .none, s.status.ovr⟩ ∧
      (s.pending = [] ∨ ∃ rest, s.pending = .engine :: rest)) := by
  rcases step_status hstep with h | ⟨-, hn, hp, h⟩ | ⟨hp, -⟩ | ⟨-, -, h⟩ | ⟨hb, -⟩
  · simp [h, hs] at ht
  · exact .inr ⟨hn, h, hp⟩
  · exact .inl hp
  · simp [h, hs] at ht
  · simp [hs] at hb

theorem step_not_busy_and_done {s t : State} (hstep : step s = .next t)
    (hs : ¬(s.status.busy = true ∧ s.status.done = true)) : ¬(t.status.busy = true ∧ t.status.done = true) := by
  rcases step_status hstep with h | ⟨-, -, -, h⟩ | ⟨-, h⟩ | ⟨-, -, h⟩ | ⟨-, _, _, _, -, -, ⟨code, h⟩ | ⟨h, -⟩⟩ <;> rw [h]
  · exact hs
  · simp
  · simp [Status.reset]
  · exact hs
  · simp
  · simp

/-- Settles O18, by the ways a step can treat STATUS. -/
theorem busyIsSetByAcceptAndClearedByCommit : Obligations.BusyIsSetByAcceptAndClearedByCommit :=
  fun _ _ hstep => ⟨step_busy_set hstep, step_busy_cleared hstep, step_not_busy_and_done hstep⟩

theorem accepted_ovr {s : State} {w : Word} {f : Status} (h : Accepted s w f) : f.ovr = false := by
  rcases h with ⟨code, rfl⟩ | ⟨rfl, -⟩ <;> rfl

theorem step_ovr_set {s t : State} (hstep : step s = .next t) (hs : s.status.ovr = false) (ht : t.status.ovr = true) :
    s.status.busy = true ∧ ∃ e rest idx v, s.pending = e :: rest ∧ e.delivers s.params.base (.wr idx v) ∧
      (accessOf (regAt idx) = .wo ∨ accessOf (regAt idx) = .rw) := by
  rcases step_status hstep with h | ⟨-, -, -, h⟩ | ⟨-, h⟩ | ⟨hb, hp, -⟩ | ⟨-, _, _, _, -, -, h⟩
  · simp [h, hs] at ht
  · simp [h, hs] at ht
  · simp [h, Status.reset] at ht
  · exact ⟨hb, hp⟩
  · simp [accepted_ovr h] at ht

theorem step_ovr_cleared {s t : State} (hstep : step s = .next t) (hs : s.status.ovr = true)
    (ht : t.status.ovr = false) :
    (∃ arriving rest, s.pending = .reset arriving :: rest) ∨
    (s.status.busy = false ∧ ∃ e rest w, s.pending = e :: rest ∧ e.delivers s.params.base (.wr 1#5 w)) := by
  rcases step_status hstep with h | ⟨-, -, -, h⟩ | ⟨hp, -⟩ | ⟨-, -, h⟩ | ⟨hb, e, rest, w, hp, hd, -⟩
  · simp [h, hs] at ht
  · simp [h, hs] at ht
  · exact .inl hp
  · simp [h] at ht
  · exact .inr ⟨hb, e, rest, w, hp, hd⟩

/-- A delivered write of CMD or a RW register sets OVR while BUSY = 1; one of CMD clears it while BUSY = 0. -/
theorem step_delivered_ovr {s t : State} (hstep : step s = .next t) {e : Event} {rest : List Event} {idx : Index}
    {v : Word} (hp : s.pending = e :: rest) (hd : e.delivers s.params.base (.wr idx v)) :
    (s.status.busy = true → accessOf (regAt idx) = .wo ∨ accessOf (regAt idx) = .rw → t.status.ovr = true) ∧
    (s.status.busy = false → idx = 1#5 → t.status.ovr = false) := by
  rw [step_delivers s e rest _ hp hd] at hstep
  refine ⟨fun hb ha => ?_, fun hb hidx => ?_⟩
  · have hdrop := execWr_busy idx v { s with pending := rest } hb
    rw [if_pos ha] at hdrop
    cases hdrop.symm.trans hstep
    rfl
  · subst hidx
    exact accepted_ovr (writeCommand_idle (s := { s with pending := rest }) hb hstep)

theorem step_reset_ovr {s t : State} (hstep : step s = .next t) {arriving : List Record} {rest : List Event}
    (hp : s.pending = .reset arriving :: rest) : t.status.ovr = false := by
  rw [step_cons s _ rest hp] at hstep
  cases hstep
  rfl

/-- Settles O19, by the ways a step can treat STATUS and by what a delivered write does. -/
theorem overrunFlagFollowsDroppedWrites : Obligations.OverrunFlagFollowsDroppedWrites :=
  fun _ _ hstep => ⟨step_ovr_set hstep, step_ovr_cleared hstep, fun _ _ _ _ hp hd => step_delivered_ovr hstep hp hd,
    fun _ _ hp => step_reset_ovr hstep hp⟩

/-- Two states are alike exactly when they differ in the engine alone, and there not in what a running command reads. -/
theorem State.alike_iff (s t : State) :
    s.Alike t ↔ ∃ f, t = { s with engine := f } ∧ (s.status.busy = true → engineAgrees s.engine f) := by
  constructor
  · rintro ⟨hparams, hstatus, hregs, hpending, hlog, hagree⟩
    exact ⟨t.engine, by rw [hparams, hstatus, hregs, hpending, hlog], hagree⟩
  · rintro ⟨f, rfl, hagree⟩
    exact ⟨rfl, rfl, rfl, rfl, rfl, hagree⟩

theorem alike_withEngine {s : State} {f : Engine} (h : s.status.busy = true → engineAgrees s.engine f) :
    s.Alike { s with engine := f } :=
  (s.alike_iff _).2 ⟨f, rfl, h⟩

theorem alike_of_idle {s : State} (f : Engine) (hb : s.status.busy = false) : s.Alike { s with engine := f } :=
  alike_withEngine fun h => by simp [hb] at h

/-! ## Accepts -/

theorem engineForEncode_agrees (e f : Engine) (lat lon : Word) (p : Nat) :
    engineAgrees (engineForEncode e lat lon p) (engineForEncode f lat lon p) :=
  ⟨rfl, rfl, rfl, rfl, fun _ => ⟨rfl, rfl, rfl, rfl⟩, fun h => by simp at h⟩

theorem engineForDecode_agrees (e f : Engine) (n : Nat) (vals : List Quintet) :
    engineAgrees (engineForDecode e n vals) (engineForDecode f n vals) :=
  ⟨rfl, rfl, rfl, rfl, fun h => by simp at h, fun _ => rfl⟩

/-- Whatever an accept of ENCODE finds in the engine: it leaves the block idle, or writes the fields ENCODE reads. -/
theorem acceptEncode_alike (a : State) (f : Engine) :
    (acceptEncode a).Alike (acceptEncode { a with engine := f }) := by
  unfold acceptEncode
  split
  · exact alike_of_idle f rfl
  · split
    · exact alike_of_idle f rfl
    · exact alike_withEngine fun _ => engineForEncode_agrees _ _ _ _ _

theorem acceptDecode_alike (a : State) (f : Engine) :
    (acceptDecode a).Alike (acceptDecode { a with engine := f }) := by
  unfold acceptDecode
  dsimp only
  split
  · exact alike_of_idle f rfl
  · split
    · exact alike_of_idle f rfl
    · split
      · exact alike_of_idle f rfl
      · exact alike_withEngine fun _ => engineForDecode_agrees _ _ _ _

/-- A CMD write is dropped, or acts on an idle block. -/
theorem accepting_alike {body : State → State} {s : State} {f : Engine}
    (hbody : ∀ a, (body a).Alike (body { a with engine := f }))
    (h : s.status.busy = true → engineAgrees s.engine f) :
    (accepting body s).Alike (accepting body { s with engine := f }) := by
  unfold accepting
  dsimp only
  split
  · exact alike_withEngine h
  · exact hbody _

theorem readReg_withEngine (s : State) (f : Engine) (r : Reg) : readReg { s with engine := f } r = readReg s r := by
  cases r <;> rfl

/-! ## One bit of a running command -/

theorem encodeAdvance_agrees {e f : Engine} (h : engineAgrees e f) (hop : e.op = .enc) :
    engineAgrees (encodeAdvance e) (encodeAdvance f) := by
  obtain ⟨ho, hn, hi, hbox, henc, -⟩ := h
  obtain ⟨hlat, hlon, hgrp, hbuf⟩ := henc hop
  refine ⟨by simpa, by simpa, by simpa, by simp [hi, hbox, hlat, hlon], fun _ => ⟨by simpa, by simpa, ?_, ?_⟩,
    fun hd => by simp [hop] at hd⟩
  · simp [encodeAdvance_grp, hi, hbox, hlat, hlon, hgrp]
  · simp [encodeAdvance_buf, hi, hbox, hlat, hlon, hgrp, hbuf]

theorem decodeAdvance_agrees {e f : Engine} (h : engineAgrees e f) (hop : e.op = .dec) :
    engineAgrees (decodeAdvance e) (decodeAdvance f) := by
  obtain ⟨ho, hn, hi, hbox, -, hdec⟩ := h
  have hvals := hdec hop
  exact ⟨ho, hn, by simpa, by simp [hi, hbox, hvals], fun he => by simp [hop] at he, fun _ => hvals⟩

theorem commitEncodeRegs_congr {e f : Engine} (h : engineAgrees e f) (hop : e.op = .enc) (r : Regs) :
    commitEncodeRegs e r = commitEncodeRegs f r := by
  obtain ⟨-, hn, -, -, henc, -⟩ := h
  obtain ⟨-, -, -, hbuf⟩ := henc hop
  simp only [commitEncodeRegs, hn, hbuf]

theorem commitDecodeRegs_congr {e f : Engine} (h : engineAgrees e f) (r : Regs) :
    commitDecodeRegs e r = commitDecodeRegs f r := by
  obtain ⟨-, -, -, hbox, -⟩ := h
  simp only [commitDecodeRegs, hbox]

theorem commitEncode_alike {s : State} {f : Engine} (h : engineAgrees s.engine f) (hop : s.engine.op = .enc) :
    (commitEncode s).Alike (commitEncode { s with engine := f }) :=
  ⟨rfl, rfl, commitEncodeRegs_congr h hop _, rfl, rfl, fun hb => by simp at hb⟩

theorem commitDecode_alike {s : State} {f : Engine} (h : engineAgrees s.engine f) :
    (commitDecode s).Alike (commitDecode { s with engine := f }) :=
  ⟨rfl, rfl, commitDecodeRegs_congr h _, rfl, rfl, fun hb => by simp at hb⟩

theorem encodeStep_alike {s : State} {f : Engine} (h : engineAgrees s.engine f) (hop : s.engine.op = .enc) :
    (encodeStep s).Alike (encodeStep { s with engine := f }) := by
  have hadv := encodeAdvance_agrees h hop
  have ⟨_, hn, hi, _⟩ := hadv
  unfold encodeStep
  dsimp only
  rw [← hn, ← hi]
  split
  · exact commitEncode_alike (s := { s with engine := encodeAdvance s.engine }) hadv (by simpa)
  · exact alike_withEngine (s := { s with engine := encodeAdvance s.engine }) fun _ => hadv

theorem decodeStep_alike {s : State} {f : Engine} (h : engineAgrees s.engine f) (hop : s.engine.op = .dec) :
    (decodeStep s).Alike (decodeStep { s with engine := f }) := by
  have hadv := decodeAdvance_agrees h hop
  have ⟨_, hn, hi, _⟩ := hadv
  unfold decodeStep
  dsimp only
  rw [← hn, ← hi]
  split
  · exact commitDecode_alike (s := { s with engine := decodeAdvance s.engine }) hadv
  · exact alike_withEngine (s := { s with engine := decodeAdvance s.engine }) fun _ => hadv

section
variable {s : State} {f : Engine} (h : s.status.busy = true → engineAgrees s.engine f)
include h

theorem execInvalid_alike : outcomesAlike (execInvalid s) (execInvalid { s with engine := f }) :=
  accepting_alike (fun _ => alike_of_idle f rfl) h

theorem exec_command_alike {c : Instr} (hc : c.isCommand = true) :
    outcomesAlike (exec c s) (exec c { s with engine := f }) := by
  cases c with
  | nop => exact accepting_alike (fun _ => alike_of_idle f rfl) h
  | encode => exact accepting_alike (fun a => acceptEncode_alike a f) h
  | decode => exact accepting_alike (fun a => acceptDecode_alike a f) h
  | refine => exact accepting_alike (fun _ => alike_of_idle f rfl) h
  | encchar arg =>
    exact accepting_alike (fun _ => by dsimp only; split <;> exact alike_of_idle f rfl) h
  | decchar ch =>
    exact accepting_alike (fun _ => by dsimp only; split <;> exact alike_of_idle f rfl) h
  | rd idx => simp [Instr.isCommand] at hc
  | wr idx data => simp [Instr.isCommand] at hc

theorem storeOrDrop_alike (r : Reg) (v : Word) :
    (storeOrDrop r v s).Alike (storeOrDrop r v { s with engine := f }) := by
  unfold storeOrDrop
  dsimp only
  split <;> exact alike_withEngine h

theorem exec_alike (i : Instr) : outcomesAlike (exec i s) (exec i { s with engine := f }) := by
  cases hi : i.isCommand with
  | true => exact exec_command_alike h hi
  | false =>
    cases i with
    | rd idx =>
      simp only [exec, execRd, readReg_withEngine]
      exact alike_withEngine (s := { s with readLog := s.readLog ++ [readReg s (regAt idx)] }) h
    | wr idx data =>
      show outcomesAlike (execWr idx data s) (execWr idx data _)
      unfold execWr
      split
      · rw [writeCommand_eq, writeCommand_eq]
        cases hd : decodeCmd data with
        | ok c => exact exec_command_alike h (decodeCmd_isCommand hd)
        | error _ => exact execInvalid_alike h
      · exact storeOrDrop_alike h _ _
      · exact alike_withEngine h
      · exact alike_withEngine h
    | nop | encode | decode | refine | encchar | decchar => simp [Instr.isCommand] at hi

/-! ## The engine's step -/

theorem engineStep_alike : (engineStep s).Alike (engineStep { s with engine := f }) := by
  cases hb : s.status.busy with
  | false =>
    rw [engineStep_idle s hb, engineStep_idle { s with engine := f } hb]
    exact alike_withEngine h
  | true =>
    obtain ⟨hop, -⟩ := h hb
    simp only [engineStep, hb, if_true, ← hop]
    split
    · exact encodeStep_alike (h hb) ‹_›
    · exact decodeStep_alike (h hb) ‹_›

/-! ## Events -/

theorem runWait_alike (gaps : List Nat) : outcomesAlike (runWait gaps s) (runWait gaps { s with engine := f }) := by
  simp only [runWait, exec, execRd, readReg_withEngine]
  generalize readReg s (regAt statusIndex) = v
  split
  · exact alike_withEngine (s := { s with pending := waitAgain gaps ++ s.pending, readLog := s.readLog ++ [v] }) h
  · exact alike_withEngine (s := { s with readLog := s.readLog ++ [v] }) h

theorem runAccess_alike (addr bytes : Nat) (wdata : Option Word) :
    outcomesAlike (runAccess addr bytes wdata s) (runAccess addr bytes wdata { s with engine := f }) := by
  unfold runAccess
  dsimp only
  split
  · exact exec_alike h _
  · rfl
  · rfl

theorem runEvent_alike (e : Event) : outcomesAlike (runEvent e s) (runEvent e { s with engine := f }) := by
  cases e with
  | bus r => exact exec_alike h _
  | engine => exact engineStep_alike h
  | reset arriving => exact alike_of_idle _ rfl
  | access addr bytes wdata => exact runAccess_alike h addr bytes wdata
  | wait gaps => exact runWait_alike h gaps

end

/-- Settles O60, by the next event: each gives alike outcomes on the two states. -/
theorem engineInternalsStayInvisible : Obligations.EngineInternalsStayInvisible := by
  intro s t hst
  obtain ⟨f, ht, h⟩ := (s.alike_iff t).1 hst
  have htp : t.pending = s.pending := by rw [ht]
  cases hp : s.pending with
  | nil =>
    rw [step_nil s hp, step_nil t (htp.trans hp), ht]
    exact engineStep_alike h
  | cons e rest =>
    rw [step_cons s e rest hp, step_cons t e rest (htp.trans hp), ht]
    exact runEvent_alike (s := { s with pending := rest }) h e

end Sys2Proof.Machine
end

section
/-! PROOF. The register window and the bus (20_memory.md): what RD and WR do by index, how a delivered encoding reaches exec, and
the platform's mapping of byte-addressed accesses. -/

namespace Sys2Proof.Machine

/-! ## Reads and writes by index (20_memory.md R60, R61) -/

/-- The window's registers by index (10_state.md part 1). -/
theorem regAt_eq_ite : ∀ idx : Index, regAt idx =
    if idx = 0#5 then .config else if idx = 1#5 then .cmd else if idx = 2#5 then .status
    else if idx = 3#5 then .result else if idx = 4#5 then .lat else if idx = 5#5 then .lon
    else if idx = 6#5 then .prec else if idx = 7#5 then .hlen else if idx = 8#5 then .hash0
    else if idx = 9#5 then .hash1 else if idx = 10#5 then .latmin else if idx = 11#5 then .latmax
    else if idx = 12#5 then .lonmin else if idx = 13#5 then .lonmax else if idx = 14#5 then .clat
    else if idx = 15#5 then .clon else if idx = 16#5 then .rval else if idx = 17#5 then .rlow
    else if idx = 18#5 then .rhigh else .reserved := by decide

/-- Settles O20: RD logs the reading of the register at its index, which is taken through the window's table. -/
theorem busReadReturnsTheWordOfItsIndex : Obligations.BusReadReturnsTheWordOfItsIndex := by
  intro s idx
  show execRd idx s = _
  rw [execRd, regAt_eq_ite]
  simp only [apply_ite (readReg s)]
  rfl

/-- Settles O22: each of the nine indices is of class RW, so an idle write is a store to its register. -/
theorem idleBusWriteStoresTheWord : Obligations.IdleBusWriteStoresTheWord := by
  intro s v hb
  have store (idx : Index) (h : accessOf (regAt idx) = .rw) := execWr_rw_idle idx v s hb h
  exact ⟨store 4#5 rfl, store 5#5 rfl, store 6#5 rfl, store 7#5 rfl, store 8#5 rfl, store 9#5 rfl,
    store 16#5 rfl, store 17#5 rfl, store 18#5 rfl⟩

/-- Settles O26: index 1 is CMD, and a CMD write runs what its word decodes to. -/
theorem commandWriteRunsTheCommand : Obligations.CommandWriteRunsTheCommand := by
  intro s w c h
  show writeCommand w s = _
  rw [writeCommand_eq, h]

/-! ## Delivered encodings (20_memory.md R68, R73; 30_encoding.md R81) -/

/-- Settles O6: the step delivers the decoded record, which for D = 1 and IDX = 1 is a CMD write. -/
theorem stepRunsTheDecodedTransaction : Obligations.StepRunsTheDecodedTransaction := by
  intro s r rest hp
  have hstep := step_delivers s (.bus r) rest (decodeBus r) hp rfl
  refine ⟨hstep, fun c hd hidx hc => ?_⟩
  have hwr : decodeBus r = .wr 1#5 (recData r) := by simp [decodeBus, hd, hidx]
  rw [hstep, hwr]
  exact commandWriteRunsTheCommand _ _ c hc

/-- The transaction that delivers an encoding runs the instruction the encoding decodes to. -/
theorem runRecord_toRecord {e : Encoding} {i : Instr} (h : decode e = .ok i) (s : State) :
    runRecord e.toRecord s = exec i s := by
  cases e with
  | cmd w => exact runRecord_command w i h s
  | bus r => cases h; rfl

/-- What the opcode table's bits decode to is what their encoding decodes to. -/
theorem decode_tableEncoding {nbits w : Nat} {i : Instr} (h : decodeTableWord nbits w = some i) :
    decode (tableEncoding nbits w) = .ok i := by
  unfold decodeTableWord at h
  unfold tableEncoding
  by_cases hn : nbits ≤ 64
  · simp only [if_pos hn, Option.ite_none_right_eq_some] at h ⊢
    obtain ⟨-, hcmd⟩ := h
    show decodeCmd _ = _
    cases hd : decodeCmd (BitVec.ofNat 64 w) with
    | error e => rw [hd] at hcmd; cases hcmd
    | ok c => rw [hd] at hcmd; cases hcmd; rfl
  · simp only [if_neg hn, Option.ite_none_right_eq_some, Option.some.injEq] at h ⊢
    obtain ⟨-, -, hbus⟩ := h
    exact congrArg Except.ok hbus

/-- Settles O5: the next step takes the delivered transaction from the list and runs what the table's bits decode to. -/
theorem fetchedTableWordRunsItsInstruction : Obligations.FetchedTableWordRunsItsInstruction := by
  intro s nbits w i h
  rw [step_cons _ _ s.pending rfl]
  exact runRecord_toRecord (decode_tableEncoding h) s

/-! ## Byte-addressed accesses (20_memory.md R62, R66) -/

theorem accessInstr_refused {base addr bytes : Nat} (wdata : Option Word)
    (h : bytes ≠ 8 ∨ ((addr : Int) - base) % 8 ≠ 0) :
    accessInstr base addr bytes wdata = .error (.inr .notATransaction) := if_pos h

/-- A whole aligned word lies outside the window, or is the transaction on its index. -/
theorem accessInstr_aligned {base addr : Nat} (wdata : Option Word) (h : ((addr : Int) - base) % 8 = 0) :
    accessInstr base addr 8 wdata =
      if addr < base ∨ base + 256 ≤ addr then .error (.inl .outsideWindow)
      else .ok (wdata.elim (.rd (BitVec.ofNat 5 ((addr - base) / 8))) (.wr (BitVec.ofNat 5 ((addr - base) / 8)))) := by
  have hword : ¬ (8 ≠ Config.wordBytes ∨ ((addr : Int) - base) % 8 ≠ 0) := by simp [Config.wordBytes, h]
  have hout : ((addr : Int) - base < 0 ∨ 8 * (Config.windowWords : Int) ≤ addr - base) ↔
      (addr < base ∨ base + 256 ≤ addr) := by unfold Config.windowWords; omega
  unfold accessInstr
  simp only [if_neg hword, hout, Int.toNat_sub]
  cases wdata <;> rfl

/-- An access of one word at BASE + 8 * idx is BusRead(idx), or BusWrite(idx, v) where it writes v. -/
theorem accessInstr_mapped (base : Nat) (idx : Index) (wdata : Option Word) :
    accessInstr base (base + 8 * idx.toNat) 8 wdata = .ok (wdata.elim (.rd idx) (.wr idx)) := by
  have hidx : idx.toNat < 32 := idx.isLt
  rw [accessInstr_aligned wdata (by omega), if_neg (by omega),
    show (base + 8 * idx.toNat - base) / 8 = idx.toNat by omega, BitVec.ofNat_toNat, BitVec.setWidth_eq]

/-- Settles O8, by the three answers of the platform's mapping. -/
theorem byteAccessesAreMappedOrRefused : Obligations.ByteAccessesAreMappedOrRefused := by
  intro s addr bytes wdata rest hp
  have hstep : step s = runAccess addr bytes wdata { s with pending := rest } := step_cons s _ rest hp
  refine ⟨fun h => ?_, fun idx hbytes haddr => ?_, fun hbytes hout halign => ?_⟩
  · rw [hstep, runAccess, accessInstr_refused wdata h]
  · subst hbytes haddr
    rw [step_delivers s _ rest _ hp (accessInstr_mapped s.params.base idx wdata)]
    cases wdata <;> rfl
  · subst hbytes
    rw [hstep, runAccess, accessInstr_aligned wdata halign, if_pos hout]

end Sys2Proof.Machine
end

section
/-! PROOF. Encodings (30_encoding.md): a command word and a bus record are their fields, so that the encoder inverts the decoders;
the six match and mask pairs of the command format; and the WAIT loop (30_encoding.md R97), turn by turn. -/

namespace Sys2Proof

/-! ## A word is its fields (30_encoding.md R81, R84) -/

theorem append_cmdFields (w : Word) : cmdRsv1 w ++ cmdArg w ++ cmdRsv0 w ++ cmdOp w = w := by
  rw [cmdRsv1, cmdArg, cmdRsv0, cmdOp, BitVec.extractLsb'_append_extractLsb'_eq_extractLsb' (rfl : 16 = 8 + 8),
    BitVec.extractLsb'_append_extractLsb'_eq_extractLsb' (rfl : 8 = 4 + 4),
    BitVec.extractLsb'_append_extractLsb'_eq_extractLsb' (rfl : 4 = 0 + 4), BitVec.extractLsb'_eq_self]

theorem append_recFields (r : Record) : BitVec.ofBool (recD r) ++ recIdx r ++ recData r = r := by
  have hd : BitVec.ofBool (recD r) = r.extractLsb' 69 1 := by
    ext i hi
    obtain rfl : i = 0 := by omega
    simp [recD]
  rw [hd, recIdx, recData, BitVec.extractLsb'_append_extractLsb'_eq_extractLsb' (rfl : 69 = 64 + 5),
    BitVec.extractLsb'_append_extractLsb'_eq_extractLsb' (rfl : 64 = 0 + 64), BitVec.extractLsb'_eq_self]

/-- Two command words are equal when their fields are. -/
theorem word_eq_iff (v w : Word) :
    v = w ↔ cmdRsv1 v = cmdRsv1 w ∧ cmdRsv0 v = cmdRsv0 w ∧ cmdArg v = cmdArg w ∧ cmdOp v = cmdOp w := by
  refine ⟨fun h => by simp [h], fun ⟨h1, h0, ha, ho⟩ => ?_⟩
  rw [← append_cmdFields v, ← append_cmdFields w, h1, h0, ha, ho]

/-- A word whose reserved fields are 0 is the command word of its OP and ARG. -/
theorem cmdWord_cmdFields {w : Word} (h1 : cmdRsv1 w = 0#48) (h0 : cmdRsv0 w = 0#4) : cmdWord (cmdOp w) (cmdArg w) = w := by
  rw [word_eq_iff, cmdRsv1_cmdWord, cmdRsv0_cmdWord, cmdArg_cmdWord, cmdOp_cmdWord]
  exact ⟨h1.symm, h0.symm, rfl, rfl⟩

/-- A record is the record of its fields. -/
theorem busRecord_recFields (r : Record) : busRecord (recD r) (recIdx r) (recData r) = r := by
  rw [← append_recFields (busRecord _ _ _), recD_busRecord, recIdx_busRecord, recData_busRecord, append_recFields]

/-! ## The encoder and the decoders are inverse (30_encoding.md R85 to R88) -/

theorem decodeBus_busRecord (d : Bool) (idx : Index) (data : Word) :
    decodeBus (busRecord d idx data) = if d then .wr idx data else .rd idx := by
  rw [decodeBus, recD_busRecord, recIdx_busRecord, recData_busRecord]

/-- Settles O1: the decoder reads back the fields from which the encoder made the word or the record. -/
theorem decodingAnEncodingGivesTheInstruction : Obligations.DecodingAnEncodingGivesTheInstruction := by
  intro i hi
  cases i with
  | nop | encode | decode | refine => decide
  | encchar arg =>
    have harg : arg.extractLsb' 5 3 = 0#3 := by simpa [Instr.wellFormed] using hi
    show decodeCmd (cmdWord 4#4 arg) = _
    simp [decodeCmd, cmdRsv1_cmdWord, cmdRsv0_cmdWord, cmdOp_cmdWord, cmdArg_cmdWord, harg]
  | decchar c =>
    show decodeCmd (cmdWord 5#4 c) = _
    simp [decodeCmd, cmdRsv1_cmdWord, cmdRsv0_cmdWord, cmdOp_cmdWord, cmdArg_cmdWord]
  | rd idx => exact congrArg Except.ok (decodeBus_busRecord false idx 0#64)
  | wr idx data => exact congrArg Except.ok (decodeBus_busRecord true idx data)

/-- The formula of R87 on the fields of the word. -/
theorem validWord_iff (w : Word) :
    validWord w = true ↔
      cmdRsv1 w = 0#48 ∧ cmdRsv0 w = 0#4 ∧
        ((cmdOp w ∈ [0x0#4, 0x1#4, 0x2#4, 0x3#4] ∧ cmdArg w = 0#8)
          ∨ (cmdOp w = 0x4#4 ∧ w.extractLsb' 13 3 = 0#3)
          ∨ cmdOp w = 0x5#4) := by
  simp [validWord, and_assoc, or_assoc]

/-- A valid word is the encoding of a well-formed instruction. -/
theorem exists_encode_of_validWord {w : Word} (h : validWord w = true) :
    ∃ i : Instr, i.wellFormed = true ∧ encode i = .cmd w := by
  obtain ⟨h1, h0, hcases⟩ := (validWord_iff w).1 h
  rw [← cmdWord_cmdFields h1 h0]
  rcases hcases with ⟨hop, harg⟩ | ⟨hop, htop⟩ | hop
  · rw [harg]
    simp only [List.mem_cons, List.not_mem_nil, or_false] at hop
    rcases hop with hop | hop | hop | hop <;> rw [hop]
    · exact ⟨.nop, rfl, rfl⟩
    · exact ⟨.encode, rfl, rfl⟩
    · exact ⟨.decode, rfl, rfl⟩
    · exact ⟨.refine, rfl, rfl⟩
  · exact ⟨.encchar (cmdArg w), by simp [Instr.wellFormed, argTop_eq, htop], by rw [hop]; rfl⟩
  · exact ⟨.decchar (cmdArg w), rfl, by rw [hop]; rfl⟩

/-- Settles O2: a word that decodes is valid, so it encodes some well-formed instruction, which by O1 is the one it decodes to; a
record is the record of its fields. -/
theorem encodingADecodedWordGivesTheWord : Obligations.EncodingADecodedWordGivesTheWord := by
  intro e i h
  cases e with
  | cmd w =>
    obtain ⟨j, hj, hw⟩ := exists_encode_of_validWord ((Machine.decodeCmd_ok_iff w).1 ⟨i, h⟩)
    have hdecode := decodingAnEncodingGivesTheInstruction j hj
    rw [hw, h] at hdecode
    cases hdecode
    exact ⟨hj, fun _ => hw⟩
  | bus r =>
    cases h
    cases hd : recD r with
    | false =>
      rw [decodeBus, hd]
      exact ⟨rfl, fun hdata => congrArg Encoding.bus (by rw [← hdata r rfl hd, ← hd, busRecord_recFields])⟩
    | true =>
      rw [decodeBus, hd]
      exact ⟨rfl, fun _ => congrArg Encoding.bus (by rw [← hd, busRecord_recFields])⟩

/-! ## The six match and mask pairs (30_encoding.md R87) -/

/-- The match and mask of each of the six commands. -/
def commandPatterns : List (Word × Word) :=
  [(0x0#64, 0xFFFFFFFFFFFFFFFF#64), (0x1#64, 0xFFFFFFFFFFFFFFFF#64), (0x2#64, 0xFFFFFFFFFFFFFFFF#64),
    (0x3#64, 0xFFFFFFFFFFFFFFFF#64), (0x4#64, 0xFFFFFFFFFFFFE0FF#64), (0x5#64, 0xFFFFFFFFFFFF00FF#64)]

/-- How many of the six patterns a word matches. -/
def matchCount (w : Word) : Nat := commandPatterns.countP (fun p => w &&& p.2 == p.1)

/-- A word matches a pattern field by field. -/
theorem and_eq_iff (w mask bits : Word) :
    w &&& mask = bits ↔
      cmdRsv1 w &&& cmdRsv1 mask = cmdRsv1 bits ∧ cmdRsv0 w &&& cmdRsv0 mask = cmdRsv0 bits ∧
        cmdArg w &&& cmdArg mask = cmdArg bits ∧ cmdOp w &&& cmdOp mask = cmdOp bits := by
  rw [word_eq_iff]
  simp only [cmdRsv1, cmdRsv0, cmdArg, cmdOp, BitVec.extractLsb'_and]

/-- Every mask covers the reserved fields and OP, and every match has 0 in the reserved fields and in ARG. -/
theorem commandPatterns_fields : ∀ p ∈ commandPatterns,
    (cmdRsv1 p.2 = BitVec.allOnes 48 ∧ cmdRsv0 p.2 = BitVec.allOnes 4 ∧ cmdOp p.2 = BitVec.allOnes 4) ∧
    cmdRsv1 p.1 = 0#48 ∧ cmdRsv0 p.1 = 0#4 ∧ cmdArg p.1 = 0#8 := by
  simp [commandPatterns, cmdRsv1, cmdRsv0, cmdArg, cmdOp]

/-- A word matches a command's pattern when its reserved fields are 0, ARG has no bit the command does not use, and OP is the
command's. -/
theorem matches_iff (w : Word) {p : Word × Word} (hp : p ∈ commandPatterns) :
    w &&& p.2 = p.1 ↔
      cmdRsv1 w = 0#48 ∧ cmdRsv0 w = 0#4 ∧ cmdArg w &&& cmdArg p.2 = 0#8 ∧ cmdOp w = cmdOp p.1 := by
  obtain ⟨⟨hm1, hm0, hmo⟩, hb1, hb0, hba⟩ := commandPatterns_fields p hp
  rw [and_eq_iff, hm1, hm0, hmo, hb1, hb0, hba]
  simp only [BitVec.and_allOnes]

/-- No two patterns overlap, since no two have the same OP. -/
theorem matchCount_le_one (w : Word) : matchCount w ≤ 1 := by
  have hnodup : (commandPatterns.map (fun p => cmdOp p.1)).Nodup := by decide
  calc matchCount w
      ≤ commandPatterns.countP ((· == cmdOp w) ∘ fun p => cmdOp p.1) := by
        refine List.countP_mono_left fun p hp h => ?_
        obtain ⟨-, -, -, hop⟩ := (matches_iff w hp).1 (beq_iff_eq.1 h)
        simp [hop]
    _ = (commandPatterns.map (fun p => cmdOp p.1)).count (cmdOp w) := List.countP_map.symm
    _ ≤ 1 := List.nodup_iff_count_le_one.1 hnodup _

/-- A word is valid exactly when it matches one of the patterns. -/
theorem validWord_iff_matches (w : Word) : validWord w = true ↔ ∃ p ∈ commandPatterns, w &&& p.2 = p.1 := by
  have hall (a : Byte) : a &&& 0xFF#8 = 0#8 ↔ a = 0#8 := by
    rw [show 0xFF#8 = BitVec.allOnes 8 from rfl, BitVec.and_allOnes]
  have htop : ∀ a : Byte, a &&& 0xE0#8 = 0#8 ↔ a.extractLsb' 5 3 = 0#3 := by decide
  have hfields : (∃ p ∈ commandPatterns, cmdArg w &&& cmdArg p.2 = 0#8 ∧ cmdOp w = cmdOp p.1) ↔
      (cmdOp w ∈ [0x0#4, 0x1#4, 0x2#4, 0x3#4] ∧ cmdArg w = 0#8) ∨
        (cmdOp w = 0x4#4 ∧ w.extractLsb' 13 3 = 0#3) ∨ cmdOp w = 0x5#4 := by
    rw [← argTop_eq, ← htop, ← hall]
    simp only [commandPatterns, List.mem_cons, exists_eq_or_imp]
    simp [cmdArg, cmdOp, or_and_right, or_assoc, and_comm]
  calc validWord w = true
      ↔ cmdRsv1 w = 0#48 ∧ cmdRsv0 w = 0#4 ∧ ∃ p ∈ commandPatterns, cmdArg w &&& cmdArg p.2 = 0#8 ∧ cmdOp w = cmdOp p.1 := by
        rw [validWord_iff, hfields]
    _ ↔ ∃ p ∈ commandPatterns, cmdRsv1 w = 0#48 ∧ cmdRsv0 w = 0#4 ∧ cmdArg w &&& cmdArg p.2 = 0#8 ∧ cmdOp w = cmdOp p.1 := by
        simp only [← exists_and_left, and_left_comm]
    _ ↔ ∃ p ∈ commandPatterns, w &&& p.2 = p.1 := exists_congr fun p => and_congr_right fun hp => (matches_iff w hp).symm

/-- Settles O3: a valid word matches some pattern and no word matches two, so the count is 1 for a valid word and 0 for any other. -/
theorem validWordsMatchExactlyOnePattern : Obligations.ValidWordsMatchExactlyOnePattern := by
  intro w
  have hle := matchCount_le_one w
  have hpos : 0 < matchCount w ↔ validWord w = true := by
    rw [matchCount, List.countP_pos_iff, validWord_iff_matches]
    simp only [beq_iff_eq]
  refine ⟨validWord_iff w, ?_, ?_, (Machine.decodeCmd_ok_iff w).symm⟩
  · rw [← hpos]
    show _ ↔ matchCount w = 1
    omega
  · rw [← Bool.not_eq_true, ← hpos]
    show _ ↔ matchCount w = 0
    omega

/-- Settles O4: each word and record is decoded by evaluation. -/
theorem specWordsDecodeAsListed : Obligations.SpecWordsDecodeAsListed := by
  unfold Obligations.SpecWordsDecodeAsListed
  decide

end Sys2Proof

namespace Sys2Proof.Machine

/-! ## The WAIT loop (30_encoding.md R97) -/

/-- One turn of the loop: a read of STATUS, and the next turn behind its engine steps while BUSY = 1. -/
theorem step_wait {s : State} {gaps : List Nat} {rest : List Event} (hp : s.pending = .wait gaps :: rest) :
    step s = .next { s with pending := if s.status.busy then waitAgain gaps ++ rest else rest,
                            readLog := s.readLog ++ [statusWord s.status] } := by
  have hbusy : (readReg s (regAt statusIndex)).getLsbD 0 = s.status.busy := getLsbD_statusWord s.status 0
  rw [step_cons s _ rest hp]
  show Host.Outcome.next (if (readReg s (regAt statusIndex)).getLsbD 0 then _ else _) = _
  rw [hbusy]
  cases s.status.busy <;> rfl

/-- Settles O9, by BUSY and by whether the schedule has ended. -/
theorem waitReadsStatusUntilIdle : Obligations.WaitReadsStatusUntilIdle := by
  intro s gaps rest hp
  have hstep := step_wait hp
  refine ⟨fun hb => ?_, fun hb g gs hg => ?_, fun hb hg => ?_⟩
  · rw [hstep, hb]; rfl
  · rw [hstep, hb, hg]; simp [waitAgain]
  · rw [hstep, hb, hg]; rfl

theorem engineStep_frame (s : State) : (engineStep s).pending = s.pending ∧ (engineStep s).readLog = s.readLog := by
  rcases engineStep_cases s with ⟨-, hs⟩ | ⟨-, -, ⟨-, hs⟩ | ⟨-, hs⟩⟩ | ⟨-, -, ⟨-, hs⟩ | ⟨-, hs⟩⟩ <;> rw [hs] <;> exact ⟨rfl, rfl⟩

/-- A running command's bit short of the last. -/
theorem engineStep_continues {s : State} (hb : s.status.busy = true) (hn : s.engine.i + 1 ≠ 5 * s.engine.n) :
    (engineStep s).status = s.status ∧ (engineStep s).engine.n = s.engine.n ∧ (engineStep s).engine.i = s.engine.i + 1 := by
  cases hop : s.engine.op with
  | enc => simp [engineStep_enc s hb hop hn]
  | dec => simp [engineStep_dec s hb hop hn]

/-- A running command's last bit finishes it. -/
theorem engineStep_finishes {s : State} (hb : s.status.busy = true) (hn : s.engine.i + 1 = 5 * s.engine.n) :
    (engineStep s).status = statusFinished .none s.status := by
  cases hop : s.engine.op with
  | enc => simp [engineStep_enc_last s hb hop hn]
  | dec => simp [engineStep_dec_last s hb hop hn]

/-- A turn of a running WAIT whose schedule has ended: one read of STATUS and one engine step, after which the WAIT is next again. -/
theorem runSteps_wait_turn {s : State} {rest : List Event} (hb : s.status.busy = true) (hp : s.pending = .wait [] :: rest) :
    ∃ u : State, (∀ k, runSteps (k + 2) s = runSteps k u) ∧ u.pending = .wait [] :: rest ∧
      u.readLog = s.readLog ++ [statusWord s.status] ∧
      (s.engine.i + 1 = 5 * s.engine.n → u.status = statusFinished .none s.status) ∧
      (s.engine.i + 1 ≠ 5 * s.engine.n →
        u.status = s.status ∧ u.engine.n = s.engine.n ∧ u.engine.i = s.engine.i + 1) := by
  have hread := step_wait hp
  rw [hb] at hread
  refine ⟨engineStep { s with pending := .wait [] :: rest, readLog := s.readLog ++ [statusWord s.status] }, fun k => ?_,
    (engineStep_frame _).1, (engineStep_frame _).2, fun h => engineStep_finishes hb h, fun h => engineStep_continues hb h⟩
  rw [runSteps_next hread]
  exact runSteps_next (step_cons _ .engine (.wait [] :: rest) rfl)

/-- With k + 1 bits of the running command to go, a WAIT whose schedule has ended takes k + 1 turns and a last read. -/
theorem runSteps_wait_of_bits_left (k : Nat) {s : State} {rest : List Event} (hb : s.status.busy = true)
    (hp : s.pending = .wait [] :: rest) (hk : s.engine.i + (k + 1) = 5 * s.engine.n) :
    ∃ t, runSteps (2 * (k + 1) + 1) s = .next t ∧ t.pending = rest ∧ t.status = statusFinished .none s.status ∧
      t.readLog = s.readLog ++ List.replicate (k + 1) (statusWord s.status) ++ [statusWord t.status] := by
  induction k generalizing s with
  | zero =>
    obtain ⟨u, hrun, hup, hul, hlast, -⟩ := runSteps_wait_turn hb hp
    have hstatus := hlast hk
    refine ⟨_, (hrun 1).trans (runSteps_next (step_wait hup)), ?_, hstatus, ?_⟩
    · simp [hstatus]
    · simp [hul]
  | succ k ih =>
    obtain ⟨u, hrun, hup, hul, -, hmore⟩ := runSteps_wait_turn hb hp
    obtain ⟨hstatus, hn, hi⟩ := hmore (by omega)
    obtain ⟨t, ht, htp, hts, htl⟩ := ih (hstatus ▸ hb) hup (by omega)
    refine ⟨t, (hrun _).trans ht, htp, hstatus ▸ hts, ?_⟩
    simp [htl, hul, hstatus, List.replicate_succ]

/-- Settles O10: the invariant leaves the running command at least one bit to go. -/
theorem waitEndsAfterTheCommit : Obligations.WaitEndsAfterTheCommit := by
  rintro s rest ⟨-, -, hrun⟩ hb hp
  obtain ⟨-, -, -, hi, -⟩ := hrun hb
  obtain ⟨k, hk⟩ := Nat.exists_eq_add_of_lt hi
  rw [show 5 * s.engine.n - s.engine.i = k + 1 by omega]
  exact runSteps_wait_of_bits_left k hb hp (by omega)

end Sys2Proof.Machine
end

section
/-! PROOF. The interval bisector (40_refine.md): what refine writes, what an exact mid-point means for the value and the interval,
and the engine's intervals as cells of a dyadic grid, whose mid-points are exact. -/

namespace Sys2Proof.Machine

/-! ## What refine writes (40_refine.md R111, R112) -/

theorem refine_upper {v lo hi : Word} (h : ge v (mid lo hi) = true) : refine v lo hi = (true, mid lo hi, hi) := if_pos h

theorem refine_lower {v lo hi : Word} (h : ge v (mid lo hi) = false) : refine v lo hi = (false, lo, mid lo hi) :=
  if_neg (Bool.eq_false_iff.1 h)

/-- The bit is the comparison with the mid-point. -/
theorem refine_bit (v lo hi : Word) : (refine v lo hi).1 = ge v (mid lo hi) := by
  cases h : ge v (mid lo hi)
  · rw [refine_lower h]
  · rw [refine_upper h]

theorem mid_nan {lo hi : Word} (h : isNaN lo = true ∨ isNaN hi = true) : mid lo hi = Config.cnan := by
  rw [mid, add_nan lo hi h, half_nan _ isNaN_cnan]

/-- Halving makes no NaN but CNAN: the half of an infinity or of a finite word is none. -/
theorem half_eq_cnan_of_nan {x : Word} (h : isNaN (half x) = true) : half x = Config.cnan := by
  rcases kind_cases x with ⟨hn, -, -⟩ | ⟨hn, hi, -⟩ | ⟨-, -, hf⟩
  · exact half_nan x hn
  · rw [half_inf x hi, hn] at h
    cases h
  · rw [half_finite x hf, isNaN_withSign _ _ (roundMagnitude_le _ _)] at h
    cases h

/-- Settles O35, by the bit; a NaN bound makes the mid-point CNAN, which compares false. -/
theorem refinePassesBoundsThrough : Obligations.RefinePassesBoundsThrough := by
  intro v lo hi
  rw [refine_bit]
  exact ⟨fun hbit => by rw [refine_upper hbit], fun hbit => by rw [refine_lower hbit], half_eq_cnan_of_nan,
    fun hnan => by rw [refine_lower (mid_nan hnan ▸ ge_nan_right v _ isNaN_cnan), mid_nan hnan, Config.cnan]⟩

/-- Settles O32: an idle REFINE finishes on the registers of one bisection, by its bit. -/
theorem refineBisectsTheHostsInterval : Obligations.RefineBisectsTheHostsInterval := by
  intro s hb
  rw [execRefine_idle s hb, refineRegs]
  cases hbit : ge s.regs.rval (mid s.regs.rlow s.regs.rhigh)
  · rw [refine_lower hbit]
    rfl
  · rw [refine_upper hbit]
    rfl

/-! ## An exact mid-point (40_refine.md R115) -/

/-- Settles O39: the bit says on which side of the mid-point the value lies, and the mid-point is strictly between the bounds. -/
theorem exactBisectionKeepsTheValueInside : Obligations.ExactBisectionKeepsTheValueInside := by
  intro v lo hi hv _ _ hlt hmid hfin hlo hhi o
  have hge := ge_iff v (mid lo hi) (not_nan_of_finite hv).1 (not_nan_of_finite hfin).1
  cases hbit : ge v (mid lo hi)
  · have hbelow := mt hge.2 (Bool.eq_false_iff.1 hbit)
    rw [show o = (false, lo, mid lo hi) from refine_lower hbit]
    dsimp only
    exact ⟨hlo, by omega, by omega, iff_of_false Bool.false_ne_true (by omega), fun _ => by omega⟩
  · rw [show o = (true, mid lo hi, hi) from refine_upper hbit]
    exact ⟨hge.1 hbit, hhi, by dsimp only; omega, iff_of_true rfl ⟨rfl, hmid⟩, id⟩

/-- The mid-point of finite bounds is exact where their sum is fewer than 2^53 times 2^(k + 1) units. Of bounds lo < hi a zero
mid-point is +0.0, since hi is positive then. -/
theorem mid_exact {lo hi : Word} (hlo : isFinite lo = true) (hhi : isFinite hi = true) (hlt : value lo < value hi) {m k : Nat}
    (hm : m < 2 ^ 53) (hk : k + 1 + 53 ≤ 2098) (hs : (value lo + value hi).natAbs = m * 2 ^ (k + 1)) :
    2 * value (mid lo hi) = value lo + value hi ∧ isFinite (mid lo hi) = true ∧
    (value (mid lo hi) = 0 → mid lo hi = 0#64) := by
  have hpow : ∀ e, e + 53 ≤ 2098 → m * 2 ^ e < 2 ^ 2098 := fun e he =>
    calc m * 2 ^ e < 2 ^ 53 * 2 ^ e := Nat.mul_lt_mul_of_pos_right hm (by positivity)
      _ = 2 ^ (53 + e) := (pow_add 2 53 e).symm
      _ ≤ 2 ^ 2098 := pow_le_pow_right₀ one_le_two (by omega)
  obtain ⟨hadd, hfin, hzero⟩ := add_exact lo hi hlo hhi m (k + 1) hm (hpow _ hk) hs
  have hmag : magnitude (add lo hi) = 2 * (m * 2 ^ k) := by rw [← value_natAbs, hadd, hs, pow_succ]; ring
  obtain ⟨hhalf, hfin', -⟩ := half_exact (add lo hi) hfin m k hm (hpow k (by omega)) hmag
  rw [hadd] at hhalf
  refine ⟨hhalf, hfin', fun hz => ?_⟩
  have hsum : value lo + value hi = 0 := by rw [← hhalf, ← mid, hz, Int.mul_zero]
  have hsign : signBit hi = false := by
    have hspec := signBit_spec hi
    cases hneg : signBit hi
    · rfl
    · rw [hneg, if_pos rfl] at hspec
      omega
  rw [mid, hzero hsum (by simp [hsign])]
  decide

/-! ## The engine's intervals (40_refine.md R114, 43_decode.md R168) -/

/-- Cell L of the 2^j equal cells that j bisections make of [-45 * 2^q, 45 * 2^q] units, as an interval of finite words in which a
zero bound is +0.0. The range is [-180, 180] for q = 1076 and [-90, 90] for q = 1075. -/
structure IsCell (q j L : Nat) (lo hi : Word) : Prop where
  finite_lo : isFinite lo = true
  finite_hi : isFinite hi = true
  index_lt : L < 2 ^ j
  lo_eq : value lo = 45 * (2 * L - 2 ^ j) * 2 ^ (q - j)
  hi_eq : value hi = 45 * (2 * L + 2 - 2 ^ j) * 2 ^ (q - j)
  zero_lo : value lo = 0 → lo = 0#64
  zero_hi : value hi = 0 → hi = 0#64

theorem IsCell.lo_lt_hi {q j L : Nat} {lo hi : Word} (h : IsCell q j L lo hi) : value lo < value hi := by
  have hpos : (0 : Int) < 2 ^ (q - j) := by positivity
  rw [h.lo_eq, h.hi_eq]
  linarith

/-- Up to the 48th bisection of an axis the mid-point is exact: it is 45 * |2 L + 1 - 2^j| < 2^53 grid steps from 0. -/
theorem IsCell.mid_exact {q j L : Nat} {lo hi : Word} (h : IsCell q j L lo hi) (hj : j ≤ 47) (hq : q ≤ 1076) :
    2 * value (mid lo hi) = value lo + value hi ∧ isFinite (mid lo hi) = true ∧
    (value (mid lo hi) = 0 → mid lo hi = 0#64) := by
  have hsum : value lo + value hi = 45 * (2 * L + 1 - 2 ^ j) * 2 ^ (q - j + 1) := by
    rw [h.lo_eq, h.hi_eq, pow_succ]
    ring
  refine Machine.mid_exact h.finite_lo h.finite_hi h.lo_lt_hi (m := (45 * (2 * L + 1 - 2 ^ j) : Int).natAbs) (k := q - j)
    ?_ (by omega) ?_
  · have hcells : 2 ^ j ≤ 2 ^ 47 := Nat.pow_le_pow_right two_pos hj
    have hcast : (2 ^ j : Int) = ((2 ^ j : Nat) : Int) := by push_cast; rfl
    have hL := h.index_lt
    rw [hcast]
    omega
  · rw [hsum, Int.natAbs_mul, Int.natAbs_pow]
    rfl

theorem IsCell.mid_eq {q j L : Nat} {lo hi : Word} (h : IsCell q j L lo hi) (hj : j ≤ 47) (hq : q ≤ 1076) :
    value (mid lo hi) = 45 * (2 * L + 1 - 2 ^ j) * 2 ^ (q - j) := by
  have hmid := (h.mid_exact hj hq).1
  rw [h.lo_eq, h.hi_eq] at hmid
  linarith

/-- The bounds and the mid-point of a cell in steps of the next finer grid. -/
theorem IsCell.bounds_succ {q j L : Nat} {lo hi : Word} (h : IsCell q j L lo hi) (hj : j ≤ 47) (hq : q ≤ 1076) (hjq : j < q) :
    value lo = 45 * (4 * L - 2 ^ (j + 1)) * 2 ^ (q - (j + 1)) ∧
    value (mid lo hi) = 45 * (4 * L + 2 - 2 ^ (j + 1)) * 2 ^ (q - (j + 1)) ∧
    value hi = 45 * (4 * L + 4 - 2 ^ (j + 1)) * 2 ^ (q - (j + 1)) := by
  rw [h.mid_eq hj hq, h.lo_eq, h.hi_eq, show q - j = q - (j + 1) + 1 by omega, pow_succ, pow_succ]
  exact ⟨by ring, by ring, by ring⟩

/-- Bisection by a bit leads from a cell to the cell of the next finer grid that the bit names. -/
theorem IsCell.halve {q j L : Nat} {lo hi : Word} (h : IsCell q j L lo hi) (hj : j ≤ 47) (hq : q ≤ 1076) (hjq : j < q) (b : Bool) :
    IsCell q (j + 1) (2 * L + b.toNat) (if b then mid lo hi else lo) (if b then hi else mid lo hi) := by
  obtain ⟨-, hfin, hzero⟩ := h.mid_exact hj hq
  obtain ⟨hlo, hmid, hhi⟩ := h.bounds_succ hj hq hjq
  have hL := h.index_lt
  have hpow : 2 ^ (j + 1) = 2 * 2 ^ j := pow_succ' 2 j
  cases b with
  | false =>
    rw [if_neg Bool.false_ne_true, if_neg Bool.false_ne_true, Bool.toNat_false]
    exact ⟨h.finite_lo, hfin, by omega, by rw [hlo]; push_cast; ring, by rw [hmid]; push_cast; ring, h.zero_lo, hzero⟩
  | true =>
    rw [if_pos rfl, if_pos rfl, Bool.toNat_true]
    exact ⟨hfin, h.finite_hi, by omega, by rw [hmid]; push_cast; ring, by rw [hhi]; push_cast; ring, hzero, h.zero_hi⟩

theorem halveAxis_eq (k : Nat) (b : Bool) (x : Box) :
    halveAxis k b x =
      if onLongitude k then
        { x with lonlo := if b then mid x.lonlo x.lonhi else x.lonlo, lonhi := if b then x.lonhi else mid x.lonlo x.lonhi }
      else
        { x with latlo := if b then mid x.latlo x.lathi else x.latlo, lathi := if b then x.lathi else mid x.latlo x.lathi } := by
  unfold halveAxis
  cases b <;> simp only [Bool.false_eq_true, if_false, if_true]

theorem fullBox_isCell :
    IsCell 1076 0 0 fullBox.lonlo fullBox.lonhi ∧ IsCell 1075 0 0 fullBox.latlo fullBox.lathi := by
  constructor <;> constructor <;> decide +kernel

/-- A longitude bit bisects longitude alone, and a latitude bit latitude alone (40_refine.md R116, R117). -/
theorem axis_succ (bit : Nat → Bool) (k : Nat) :
    onLongitude k = true ∧ lonBits (k + 1) = lonBits k + 1 ∧ latBits (k + 1) = latBits k ∧
      axisNumber bit true (k + 1) = 2 * axisNumber bit true k + (bit k).toNat ∧
      axisNumber bit false (k + 1) = axisNumber bit false k ∨
    onLongitude k = false ∧ lonBits (k + 1) = lonBits k ∧ latBits (k + 1) = latBits k + 1 ∧
      axisNumber bit true (k + 1) = axisNumber bit true k ∧
      axisNumber bit false (k + 1) = 2 * axisNumber bit false k + (bit k).toNat := by
  unfold lonBits latBits
  by_cases hk : k % 2 = 0
  · have hon : onLongitude k = true := by simp [onLongitude, hk]
    exact .inl ⟨hon, by omega, by omega, by simp [axisNumber, hon], by simp [axisNumber, hon]⟩
  · have hon : onLongitude k = false := by simp [onLongitude, hk]
    exact .inr ⟨hon, by omega, by omega, by simp [axisNumber, hon], by simp [axisNumber, hon]⟩

/-- The box of k bits is the cell, on each axis, of the number its bits make. -/
theorem decodeBox_isCell (bit : Nat → Bool) (k : Nat) (hk : k ≤ 95) :
    IsCell 1076 (lonBits k) (axisNumber bit true k) (decodeBox bit k).lonlo (decodeBox bit k).lonhi ∧
    IsCell 1075 (latBits k) (axisNumber bit false k) (decodeBox bit k).latlo (decodeBox bit k).lathi := by
  induction k with
  | zero => exact fullBox_isCell
  | succ k ih =>
    obtain ⟨hlon, hlat⟩ := ih (by omega)
    have hj : lonBits k ≤ 47 ∧ latBits k ≤ 47 := by unfold lonBits latBits; omega
    rw [decodeBox, halveAxis_eq]
    rcases axis_succ bit k with ⟨hon, ha, hc, hL, hT⟩ | ⟨hon, ha, hc, hL, hT⟩ <;> rw [hon, ha, hc, hL, hT]
    · exact ⟨hlon.halve hj.1 (by omega) (by omega) (bit k), hlat⟩
    · exact ⟨hlon, hlat.halve hj.2 (by omega) (by omega) (bit k)⟩

/-- Settles O55: both intervals are cells of at most 47 bisections. -/
theorem engineMidpointsAreExact : Obligations.EngineMidpointsAreExact := by
  intro bit k hk
  obtain ⟨hlon, hlat⟩ := decodeBox_isCell bit k (by omega)
  exact ⟨(hlon.mid_exact (by unfold lonBits; omega) (by omega)).1, (hlat.mid_exact (by unfold latBits; omega) (by omega)).1⟩

end Sys2Proof.Machine
end

section
/-! PROOF. The base-32 codec (41_base32.md): the codes that have a value are the 32 of the alphabet, what the two character commands do
to an idle block, and the characters the encode function gives. -/

namespace Sys2Proof.Machine

/-! ## The codes of the alphabet (41_base32.md R131, R132) -/

theorem valOf_isSome_iff (c : Byte) : (valOf c).isSome ↔ ∃ v, alph v = c := by
  simp only [Option.isSome_iff_exists, valOf_eq_some_iff]

theorem valOf_eq_none {c : Byte} (h : ∀ v, alph v ≠ c) : valOf c = none := by
  rw [← Option.not_isSome_iff_eq_none, valOf_isSome_iff]
  exact fun ⟨v, hv⟩ => h v hv

theorem alph_injective : Function.Injective alph := fun v w h => by
  rw [← Option.some_inj, ← valOf_alph v, h, valOf_alph w]

theorem mem_allValues : ∀ v : Quintet, v ∈ allValues := by decide

/-- The codes that have a value are those of the 32 values, each once: no two values share a code. -/
theorem codes_with_value_perm :
    ((List.range 256).filter fun c => (valOf (BitVec.ofNat 8 c)).isSome).Perm (allValues.map fun v => (alph v).toNat) := by
  have hnodup : (allValues.map fun v => (alph v).toNat).Nodup :=
    List.Nodup.map (fun _ _ h => alph_injective (BitVec.eq_of_toNat_eq h)) (by decide)
  refine (List.perm_ext_iff_of_nodup (List.nodup_range.filter _) hnodup).2 fun c => ?_
  simp only [List.mem_filter, List.mem_range, valOf_isSome_iff, List.mem_map, mem_allValues, true_and]
  constructor
  · rintro ⟨hc, v, hv⟩
    exact ⟨v, by rw [hv, BitVec.toNat_ofNat, Nat.mod_eq_of_lt hc]⟩
  · rintro ⟨v, rfl⟩
    exact ⟨(alph v).isLt, v, by rw [BitVec.ofNat_toNat, BitVec.setWidth_eq]⟩

/-- Settles O29: the codes that have a value are the alphabet's 32, and no code of the alphabet is an excluded one. -/
theorem characterValuesInvertTheAlphabet : Obligations.CharacterValuesInvertTheAlphabet := by
  have hexcluded : ∀ v : Quintet,
      ¬((0x41#8 ≤ alph v ∧ alph v ≤ 0x5A#8) ∨ alph v ∈ [0x61#8, 0x69#8, 0x6C#8, 0x6F#8, 0x00#8]) := by decide
  exact ⟨by decide, valOf_eq_some_iff, codes_with_value_perm.length_eq,
    fun c hc => valOf_eq_none fun v hv => hexcluded v (hv ▸ hc)⟩

/-! ## ENCCHAR and DECCHAR on an idle block (41_base32.md R133, R134) -/

theorem execEncchar_ok {arg : Byte} {s : State} (hb : s.status.busy = false) (harg : arg.extractLsb' 5 3 = 0#3) :
    exec (.encchar arg) s = .next { s with
      status := ⟨false, true, .none, false⟩
      regs := { s.regs with result := (alph (arg.setWidth 5)).setWidth 64 } } := by
  rw [execEncchar_idle arg s hb, if_pos harg, ← BitVec.setWidth_eq_extractLsb' (by decide)]
  rfl

theorem execEncchar_illFormed {arg : Byte} {s : State} (hb : s.status.busy = false) (harg : arg.extractLsb' 5 3 ≠ 0#3) :
    exec (.encchar arg) s = .next { s with status := ⟨false, true, .invalidCommand, false⟩ } := by
  rw [execEncchar_idle arg s hb, if_neg harg]
  rfl

theorem execDecchar_some {c : Byte} {v : Quintet} {s : State} (hb : s.status.busy = false) (hv : valOf c = some v) :
    exec (.decchar c) s = .next { s with
      status := ⟨false, true, .none, false⟩, regs := { s.regs with result := v.setWidth 64 } } := by
  rw [execDecchar_idle c s hb, hv]
  rfl

theorem execDecchar_none {c : Byte} {s : State} (hb : s.status.busy = false) (hc : valOf c = none) :
    exec (.decchar c) s = .next { s with status := ⟨false, true, .invalidCharacter, false⟩ } := by
  rw [execDecchar_idle c s hb, hc]
  rfl

theorem extractTop_setWidth : ∀ v : Quintet, (v.setWidth 8).extractLsb' 5 3 = 0#3 := by decide

/-- The word of ENCCHAR is the encoder's, for the argument that is v and three 0 bits. -/
theorem decodeCmd_encchar (v : Quintet) :
    decodeCmd (0x04#64 ||| (v.setWidth 64 <<< 8)) = .ok (.encchar (v.setWidth 8)) := by
  have hword : 0x04#64 ||| (v.setWidth 64 <<< 8) = cmdWord 4#4 (v.setWidth 8) := by
    rw [cmdWord, BitVec.setWidth_setWidth (by decide)]
    rfl
  rw [hword]
  exact decodingAnEncodingGivesTheInstruction (.encchar (v.setWidth 8)) (beq_iff_eq.2 (extractTop_setWidth v))

/-- Settles O30: the argument's top bits choose between the two ends of ENCCHAR; the example's word decodes to ENCCHAR of 24. -/
theorem enccharLooksUpTheCharacter : Obligations.EnccharLooksUpTheCharacter :=
  ⟨fun _ _ hb => ⟨execEncchar_ok hb, execEncchar_illFormed hb⟩, decodeCmd_encchar, by decide, fun s hb =>
    (commandWriteRunsTheCommand s _ (.encchar 0x18#8) (by decide)).trans (execEncchar_ok hb (by decide))⟩

/-- Settles O31: VAL chooses between the two ends of DECCHAR; the examples' words decode to DECCHAR of "s" and of "a". -/
theorem deccharLooksUpTheValue : Obligations.DeccharLooksUpTheValue := by
  refine ⟨fun _ _ hb => ⟨fun _ => execDecchar_some hb, execDecchar_none hb⟩,
    fun c => decodingAnEncodingGivesTheInstruction (.decchar c) rfl, by decide, by decide, fun s hb => ⟨?_, ?_⟩, by decide⟩
  · exact (commandWriteRunsTheCommand s _ (.decchar 0x73#8) (by decide)).trans
      (execDecchar_some hb (valOf_alph 24#5))
  · exact (commandWriteRunsTheCommand s _ (.decchar 0x61#8) (by decide)).trans
      (execDecchar_none hb (by decide))

/-! ## The characters of the encode function (41_base32.md R135) -/

/-- Settles O47: character j is ALPH of its group, by definition, and VAL inverts ALPH. -/
theorem encodedCharactersAreInTheAlphabet : Obligations.EncodedCharactersAreInTheAlphabet := by
  intro lat lon n
  refine ⟨by simp [encodeFn], fun c hc => ?_⟩
  obtain ⟨j, -, rfl⟩ := List.mem_map.1 hc
  exact ⟨groupOf (encodeBit lat lon) j, rfl, valOf_alph _⟩

end Sys2Proof.Machine
end

section
/-! PROOF. ENCODE (42_encode.md): its range check and its accept, one bit of its engine against the encode function, the commit, and
the run of a command between its accept and its last bit, whatever host transactions come in between. -/

namespace Sys2Proof.Machine

/-! ## The encode function (42_encode.md R149) -/

theorem encodeFn_succ (lat lon : Word) (n : Nat) :
    encodeFn lat lon (n + 1) = encodeFn lat lon n ++ [alph (groupOf (encodeBit lat lon) n)] := by
  simp [encodeFn, List.range_succ]

theorem encodeFn_length (lat lon : Word) (n : Nat) : (encodeFn lat lon n).length = n :=
  (encodedCharactersAreInTheAlphabet lat lon n).1

/-- Settles O46: both list the characters by index, and character j does not depend on the precision. -/
theorem lowerPrecisionIsAPrefix : Obligations.LowerPrecisionIsAPrefix := by
  intro lat lon p1 p2 _ _ hlt
  rw [encodeFn, encodeFn, ← List.map_take, List.take_range, Nat.min_eq_left hlt.le]

/-! ## The group (40_refine.md R118, 42_encode.md R145) -/

theorem groupNumber_lt (bit : Nat → Bool) (start j : Nat) : groupNumber bit start j < 2 ^ j := by
  induction j with
  | zero => exact Nat.one_pos
  | succ j ih =>
    have hbit := (bit (start + j)).toNat_le
    rw [groupNumber, pow_succ]
    omega

theorem groupOf_eq (bit : Nat → Bool) (j : Nat) : groupOf bit j = BitVec.ofNat 5 (groupNumber bit (5 * j) 5) := by
  simp only [groupOf, groupNumber, Nat.add_zero]
  congr 1
  omega

/-- A bit shifted into a group of at most four bits. -/
theorem shiftIn_toNat : ∀ (g : Quintet) (b : Bool), g.toNat < 2 ^ 4 →
    ((g <<< 1) ||| (BitVec.ofBool b).setWidth 5).toNat = 2 * g.toNat + b.toNat := by decide

/-- The bit of an engine on track is the encode function's, and its group takes it in. -/
theorem encodeBisect_grp_onTrack {e : Engine} (h : encodeOnTrack e) :
    (encodeBisect e).grp.toNat = groupNumber (encodeBit e.vlat e.vlon) (5 * (e.i / 5)) (e.i % 5 + 1) := by
  obtain ⟨-, hbox, hgrp, -⟩ := h
  have hlt : e.grp.toNat < 2 ^ 4 := by
    rw [hgrp]
    exact (groupNumber_lt _ _ _).trans_le (Nat.pow_le_pow_right two_pos (by omega))
  rw [encodeBisect_grp, shiftIn_toNat _ _ hlt, hgrp, hbox, groupNumber, Nat.div_add_mod]
  rfl

theorem encodeBisect_grp_complete {e : Engine} (h : encodeOnTrack e) (hi : e.i % 5 = 4) :
    (encodeBisect e).grp = groupOf (encodeBit e.vlat e.vlon) (e.i / 5) := by
  have hgrp := encodeBisect_grp_onTrack h
  rw [hi] at hgrp
  rw [groupOf_eq, ← hgrp, BitVec.ofNat_toNat, BitVec.setWidth_eq]

/-! ## A running command stays on track -/

/-- Staging one more character. -/
theorem set_staged (l : List Byte) (c : Byte) {j : Nat} (hl : l.length = j) (hj : j < 16) :
    (l ++ List.replicate (16 - j) 0#8).set j c = l ++ [c] ++ List.replicate (16 - (j + 1)) 0#8 := by
  rw [show 16 - j = 16 - (j + 1) + 1 by omega, List.replicate_succ, List.set_append_right _ _ hl.le, hl, Nat.sub_self]
  simp

/-- One bit within the buffer's sixteen characters leads from track to track: a group short of five bits grows by the bit, and a
full one is staged as the next character. -/
theorem encodeAdvance_onTrack {e : Engine} (h : encodeOnTrack e) (hi : e.i < 80) : encodeOnTrack (encodeAdvance e) := by
  have ⟨hrange, hbox, _, hbuf⟩ := h
  unfold encodeOnTrack
  rw [encodeAdvance_grp, encodeAdvance_buf, encodeAdvance_box, encodeAdvance_i, encodeAdvance_vlat, encodeAdvance_vlon]
  refine ⟨hrange, by rw [hbox]; rfl, ?_⟩
  by_cases h4 : e.i % 5 = 4
  · rw [if_pos h4, if_pos h4, show (e.i + 1) % 5 = 0 by omega, show (e.i + 1) / 5 = e.i / 5 + 1 by omega,
      encodeBisect_grp_complete h h4, Vector.toList_setIfInBounds, hbuf, encodeFn_succ]
    exact ⟨rfl, set_staged _ _ (encodeFn_length _ _ _) (by omega)⟩
  · rw [if_neg h4, if_neg h4, show (e.i + 1) % 5 = e.i % 5 + 1 by omega, show (e.i + 1) / 5 = e.i / 5 by omega]
    exact ⟨encodeBisect_grp_onTrack h, hbuf⟩

theorem decodeAdvance_onTrack {e : Engine} (h : decodeOnTrack e) : decodeOnTrack (decodeAdvance e) :=
  congrArg (halveAxis e.i (bitOfValues e.vals e.i)) h

theorem engineForEncode_onTrack (e : Engine) {lat lon : Word} (p : Nat) (h : inRange lat lon = true) :
    encodeOnTrack (engineForEncode e lat lon p) := ⟨h, rfl, rfl, by simp [encodeFn]⟩

theorem engineForDecode_onTrack (e : Engine) (n : Nat) (vals : List Quintet) :
    decodeOnTrack (engineForDecode e n vals) := rfl

theorem legal_maxp_le {p : Config.Params} (h : p.legal = true) : p.maxp ≤ 16 := by
  simp only [Config.Params.legal, Bool.and_eq_true, decide_eq_true_eq] at h
  exact h.2

theorem onTrack_of_idle {s : State} (h : s.Inv) (hb : s.status.busy = false) : s.OnTrack :=
  ⟨h, fun hbusy => by simp [hb] at hbusy⟩

theorem onTrack_of_enc {s : State} (h : s.Inv) (hop : s.engine.op = .enc) (htrack : encodeOnTrack s.engine) : s.OnTrack :=
  ⟨h, fun _ => ⟨fun _ => htrack, fun hd => by simp [hop] at hd⟩⟩

theorem onTrack_of_dec {s : State} (h : s.Inv) (hop : s.engine.op = .dec) (htrack : decodeOnTrack s.engine) : s.OnTrack :=
  ⟨h, fun _ => ⟨fun he => by simp [hop] at he, fun _ => htrack⟩⟩

theorem engineStep_onTrack {s : State} (h : s.OnTrack) : (engineStep s).OnTrack := by
  have ⟨hinv, htrack⟩ := h
  have ⟨hlegal, _, hrun⟩ := hinv
  have hinv' := engineStep_inv hinv
  rcases engineStep_cases s with ⟨-, hs⟩ | ⟨hb, hop, ⟨-, hs⟩ | ⟨-, hs⟩⟩ | ⟨hb, hop, ⟨-, hs⟩ | ⟨-, hs⟩⟩ <;> rw [hs] at hinv' ⊢
  · exact h
  · obtain ⟨-, -, hmax, hi, -⟩ := hrun hb
    have hmaxp := legal_maxp_le hlegal
    exact onTrack_of_enc hinv' (by simpa) (encodeAdvance_onTrack ((htrack hb).1 hop) (by omega))
  · exact onTrack_of_idle hinv' rfl
  · exact onTrack_of_dec hinv' hop (decodeAdvance_onTrack ((htrack hb).2 hop))
  · exact onTrack_of_idle hinv' rfl

theorem exec_onTrack {i : Instr} {s t : State} (h : s.OnTrack) (hx : exec i s = .next t) : t.OnTrack := by
  have hinv := exec_inv h.1 hx
  rcases exec_cases i s t hx with
    ⟨v, rfl⟩ | rfl | ⟨-, rfl⟩ | ⟨-, r, v, rfl⟩ | ⟨-, rfl⟩ | ⟨hb, c, hc, -, hcx⟩
  · exact h
  · exact h
  · exact h
  · exact h
  · exact onTrack_of_idle hinv rfl
  · rcases exec_command_idle c hc s t hb hcx with
      ⟨code, regs, rfl⟩ | ⟨-, hrange, -, rfl⟩ | ⟨-, n, vals, -, -, -, -, rfl⟩
    · exact onTrack_of_idle hinv rfl
    · exact onTrack_of_enc hinv rfl (engineForEncode_onTrack _ _ hrange)
    · exact onTrack_of_dec hinv rfl (engineForDecode_onTrack _ _ _)

/-- Settles O15, by what a step can be: the engine's, a reset, a turn of WAIT, or a bus transaction. -/
theorem everyStepKeepsTheEngineOnTrack : Obligations.EveryStepKeepsTheEngineOnTrack := by
  intro s t h hstep
  have hinv := everyStepKeepsTheInvariant s t h.1 hstep
  rcases step_cases s t hstep with
    ⟨-, rfl⟩ | ⟨rest, -, rfl⟩ | ⟨_, rest, -, rfl⟩ | ⟨_, rest, q, -, rfl⟩ | ⟨e, rest, i, -, -, -, -, hx⟩
  · exact engineStep_onTrack h
  · exact engineStep_onTrack (s := { s with pending := rest }) h
  · exact onTrack_of_idle hinv rfl
  · exact h
  · exact exec_onTrack (s := { s with pending := rest }) h hx

/-! ## The range check (42_encode.md R141) -/

/-- A value between two finite ones is finite: an infinity counts more than every finite magnitude. -/
theorem isFinite_of_between {lo v hi : Word} (hlo : isFinite lo = true) (hhi : isFinite hi = true) (hv : isNaN v = false)
    (h1 : value lo ≤ value v) (h2 : value v ≤ value hi) : isFinite v = true := by
  rcases kind_cases v with ⟨hn, -, -⟩ | ⟨-, hi, -⟩ | ⟨-, -, hf⟩
  · simp [hv] at hn
  · have hmag := magnitude_inf v hi
    have hmlo := magnitude_finite_lt _ hlo
    have hmhi := magnitude_finite_lt _ hhi
    rw [← value_natAbs] at hmag hmlo hmhi
    generalize 2 ^ 2098 = N at *
    omega
  · exact hf

/-- Two ordered comparisons with finite bounds hold exactly for the finite values between them. -/
theorem between_iff {lo v hi : Word} (hlo : isFinite lo = true) (hhi : isFinite hi = true) :
    (le lo v = true ∧ le v hi = true) ↔ isFinite v = true ∧ value lo ≤ value v ∧ value v ≤ value hi := by
  have nlo := (not_nan_of_finite hlo).1
  have nhi := (not_nan_of_finite hhi).1
  constructor
  · rintro ⟨h1, h2⟩
    have nv : isNaN v = false := by
      cases hn : isNaN v
      · rfl
      · simp [le, ge_nan_left v lo hn] at h1
    have hv1 := (ge_iff v lo nv nlo).1 h1
    have hv2 := (ge_iff hi v nhi nv).1 h2
    exact ⟨isFinite_of_between hlo hhi nv hv1 hv2, hv1, hv2⟩
  · rintro ⟨hf, h1, h2⟩
    have nv := (not_nan_of_finite hf).1
    exact ⟨(ge_iff v lo nv nlo).2 h1, (ge_iff hi v nhi nv).2 h2⟩

/-- Each axis is a pair of comparisons with finite bounds. -/
theorem inRange_iff (lat lon : Word) : inRange lat lon = true ↔
    (isFinite lat = true ∧ value Config.latMin ≤ value lat ∧ value lat ≤ value Config.latMax) ∧
    (isFinite lon = true ∧ value Config.lonMin ≤ value lon ∧ value lon ≤ value Config.lonMax) := by
  rw [← between_iff (by decide) (by decide), ← between_iff (by decide) (by decide)]
  simp [inRange, and_assoc]

theorem value_latRange : value Config.latMin = -(90 * 2 ^ 1074) ∧ value Config.latMax = 90 * 2 ^ 1074 := by decide +kernel

theorem value_lonRange : value Config.lonMin = -(180 * 2 ^ 1074) ∧ value Config.lonMax = 180 * 2 ^ 1074 := by decide +kernel

/-- Settles O40: the bounds of the two pairs of comparisons are the full ranges. -/
theorem rangeCheckAdmitsTheLegalCoordinates : Obligations.RangeCheckAdmitsTheLegalCoordinates := by
  intro lat lon
  rw [inRange_iff, value_latRange.1, value_latRange.2, value_lonRange.1, value_lonRange.2]
  exact ⟨fun ⟨⟨hflat, hlat1, hlat2⟩, hflon, hlon1, hlon2⟩ => ⟨hflat, hflon, hlat1, hlat2, hlon1, hlon2⟩,
    fun ⟨hflat, hflon, hlat1, hlat2, hlon1, hlon2⟩ => ⟨⟨hflat, hlat1, hlat2⟩, hflon, hlon1, hlon2⟩⟩

/-! ## The accept (42_encode.md R140 to R143) -/

theorem execEncode_ok {s : State} (hb : s.status.busy = false) (hrange : inRange s.regs.lat s.regs.lon = true)
    (hprec : precisionLegal (precision s.regs) s.params.maxp = true) :
    exec .encode s = .next { s with
      status := ⟨true, false, .none, false⟩
      engine := engineForEncode s.engine s.regs.lat s.regs.lon (precision s.regs).toNat } := by
  rw [execEncode_idle s hb, acceptEncode_ok (clearForAccept s) hrange hprec]
  rfl

/-- Settles O41: with good operands the accept starts the engine. -/
theorem encodeAcceptLoadsTheEngine : Obligations.EncodeAcceptLoadsTheEngine :=
  fun _ hb hrange h1 hmax => execEncode_ok hb hrange ((precisionLegal_iff _ _).2 ⟨h1, hmax⟩)

/-- Settles O42: the accept checks the range before the precision. -/
theorem encodeRejectsBadOperandsInOrder : Obligations.EncodeRejectsBadOperandsInOrder := by
  intro s hb
  rw [execEncode_idle s hb, acceptEncode, clearForAccept_regs]
  refine ⟨fun hrange => ?_, fun hrange hprec => ?_⟩
  · rw [if_pos hrange]
    rfl
  · have hlegal : precisionLegal (precision s.regs) s.params.maxp = false := by
      rw [Bool.eq_false_iff, Ne, precisionLegal_iff, precision]
      omega
    rw [if_neg (ne_false_of_eq_true hrange), clearForAccept_params, if_pos hlegal]
    rfl

/-! ## One bit (42_encode.md R144, R145) -/

theorem encodeAdvance_eq (e : Engine) :
    encodeAdvance e = { e with
      i := e.i + 1
      box := (refineAxis e.i e.vlat e.vlon e.box).2
      grp := if e.i % 5 = 4 then 0#5 else (encodeBisect e).grp
      buf := if e.i % 5 = 4 then e.buf.setIfInBounds (e.i / 5) (alph (encodeBisect e).grp) else e.buf } := by
  unfold encodeAdvance
  dsimp only
  split <;> rfl

/-- The bit compares the selected axis's value with its mid-point (40_refine.md R111, R116). -/
theorem refineAxis_bit (k : Nat) (vlat vlon : Word) (x : Box) :
    (refineAxis k vlat vlon x).1 = if onLongitude k then ge vlon (mid x.lonlo x.lonhi) else ge vlat (mid x.latlo x.lathi) := by
  rw [← refine_bit, ← refine_bit]
  unfold refineAxis
  split <;> rfl

theorem engineStep_enc_engine {s : State} (hb : s.status.busy = true) (hop : s.engine.op = .enc) :
    (engineStep s).engine = encodeAdvance s.engine := by
  by_cases hn : s.engine.i + 1 = 5 * s.engine.n
  · rw [engineStep_enc_last s hb hop hn, commitEncode_engine]
  · rw [engineStep_enc s hb hop hn]

/-- Settles O43, by the axis of the bit and by the bit. -/
theorem encodeStepProducesOneBit : Obligations.EncodeStepProducesOneBit := by
  intro s hb hop e onLon m b g
  refine ⟨?_, fun hn => by rw [engineStep_enc s hb hop hn]⟩
  have hbit : (refineAxis e.i e.vlat e.vlon e.box).1 = b := by
    rw [refineAxis_bit]
    by_cases hk : e.i % 2 = 0 <;> simp [b, m, onLon, onLongitude, hk]
  have hgrp : (encodeBisect e).grp = g := by
    rw [encodeBisect_grp, hbit]
    cases hb' : b <;> simp [g, hb']
  rw [engineStep_enc_engine hb hop, encodeAdvance_eq, hgrp, refineAxis_box, hbit, halveAxis]
  by_cases hk : e.i % 2 = 0 <;> simp [m, onLon, onLongitude, hk, e]

/-! ## The commit (42_encode.md R147) -/

/-- Settles O44: the last step advances the engine and commits what it has staged. -/
theorem encodeCommitWritesTheHashBuffer : Obligations.EncodeCommitWritesTheHashBuffer := by
  intro s hb hop hn
  rw [engineStep_enc_last s hb hop hn]
  refine ⟨rfl, by simp [commitEncodeRegs], fun k => ?_, rfl, rfl, rfl⟩
  rw [hashByte_packed _ (encodeAdvance s.engine).buf.toList rfl rfl k k.isLt]
  simp

/-! ## The intervals hold the coordinate (42_encode.md R152) -/

/-- A value lies in a closed interval, and meets its upper bound only at `top`. -/
def HeldBelow (top : Int) (v lo hi : Word) : Prop :=
  value lo ≤ value v ∧ value v ≤ value hi ∧ (value v = value hi → value v = top)

/-- Bisection of a cell keeps the value held. -/
theorem HeldBelow.refine {top : Int} {v lo hi : Word} (h : HeldBelow top v lo hi) (hv : isFinite v = true) {q j L : Nat}
    (hcell : IsCell q j L lo hi) (hj : j ≤ 47) (hq : q ≤ 1076) :
    HeldBelow top v (Machine.refine v lo hi).2.1 (Machine.refine v lo hi).2.2 := by
  obtain ⟨hlo, hhi, htop⟩ := h
  obtain ⟨hmid, hfin, -⟩ := hcell.mid_exact hj hq
  obtain ⟨hlo', hhi', -, -, hstrict⟩ := exactBisectionKeepsTheValueInside v lo hi hv hcell.finite_lo hcell.finite_hi
    hcell.lo_lt_hi hmid hfin hlo hhi
  exact ⟨hlo', hhi', fun heq => htop (hhi.antisymm (not_lt.1 fun hlt => (hstrict hlt).ne heq))⟩

theorem boxAfter_holds {lat lon : Word} (h : inRange lat lon = true) (k : Nat) (hk : k ≤ 95) :
    HeldBelow (value Config.latMax) lat (boxAfter lat lon k).latlo (boxAfter lat lon k).lathi ∧
    HeldBelow (value Config.lonMax) lon (boxAfter lat lon k).lonlo (boxAfter lat lon k).lonhi := by
  obtain ⟨⟨hflat, hlat1, hlat2⟩, hflon, hlon1, hlon2⟩ := (inRange_iff lat lon).1 h
  induction k with
  | zero => exact ⟨⟨hlat1, hlat2, id⟩, hlon1, hlon2, id⟩
  | succ k ih =>
    obtain ⟨hlat, hlon⟩ := ih (by omega)
    obtain ⟨hclon, hclat⟩ := decodeBox_isCell (encodeBit lat lon) k (by omega)
    rw [← boxAfter_eq_decodeBox] at hclon hclat
    rw [boxAfter, refineAxis]
    split
    · exact ⟨hlat, hlon.refine hflon hclon (by unfold lonBits; omega) (by omega)⟩
    · exact ⟨hlat.refine hflat hclat (by unfold latBits; omega) (by omega), hlon⟩

/-- Settles O48: every interval is a cell of exact mid-point, whose bisection keeps the value held. -/
theorem encoderIntervalsContainTheCoordinate : Obligations.EncoderIntervalsContainTheCoordinate := by
  intro lat lon k h hk
  obtain ⟨⟨hlat1, hlat2, hlat3⟩, hlon1, hlon2, hlon3⟩ := boxAfter_holds h k (by omega)
  exact ⟨hlat1, hlat2, hlon1, hlon2, fun heq => (hlat3 heq).trans value_latRange.2,
    fun heq => (hlon3 heq).trans value_lonRange.2⟩

/-! ## A running command among host transactions (20_memory.md R69, 44_control.md R187) -/

/-- The engine after one bit of its command, the commit apart. -/
def engineAdvance (e : Engine) : Engine :=
  match e.op with
  | .enc => encodeAdvance e
  | .dec => decodeAdvance e

theorem engineStep_running {s : State} (hb : s.status.busy = true) (hn : s.engine.i + 1 ≠ 5 * s.engine.n) :
    engineStep s = { s with engine := engineAdvance s.engine } := by
  cases hop : s.engine.op with
  | enc => rw [engineStep_enc s hb hop hn, engineAdvance, hop]
  | dec => rw [engineStep_dec s hb hop hn, engineAdvance, hop]

theorem engineAdvance_keeps (e : Engine) :
    (engineAdvance e).op = e.op ∧ (engineAdvance e).n = e.n ∧ (engineAdvance e).i = e.i + 1 ∧
    (engineAdvance e).vlat = e.vlat ∧ (engineAdvance e).vlon = e.vlon ∧ (engineAdvance e).vals = e.vals := by
  unfold engineAdvance
  split <;> simp

theorem engineAdvance_iterate_keeps (e : Engine) (k : Nat) :
    (engineAdvance^[k] e).op = e.op ∧ (engineAdvance^[k] e).n = e.n ∧ (engineAdvance^[k] e).i = e.i + k ∧
    (engineAdvance^[k] e).vlat = e.vlat ∧ (engineAdvance^[k] e).vlon = e.vlon ∧ (engineAdvance^[k] e).vals = e.vals := by
  induction k with
  | zero => exact ⟨rfl, rfl, rfl, rfl, rfl, rfl⟩
  | succ k ih =>
    rw [Function.iterate_succ_apply']
    have hkeeps := engineAdvance_keeps (engineAdvance^[k] e)
    obtain ⟨hop, hn, hi, hlat, hlon, hvals⟩ := ih
    rwa [hop, hn, hi, hlat, hlon, hvals] at hkeeps

theorem engineAdvance_iterate_onTrack {e : Engine} (hop : e.op = .enc) (h : encodeOnTrack e) {k : Nat} (hk : e.i + k ≤ 80) :
    encodeOnTrack (engineAdvance^[k] e) := by
  induction k with
  | zero => exact h
  | succ k ih =>
    obtain ⟨hopk, -, hik, -⟩ := engineAdvance_iterate_keeps e k
    rw [Function.iterate_succ_apply', engineAdvance, hopk, hop]
    exact encodeAdvance_onTrack (ih (by omega)) (by omega)

/-- A running command's state after host transactions and engine slots short of the last bit: the parameters and the registers are
as before, OVR says whether a host write was dropped, and the engine is as many bits further as there were slots. -/
def stillRunning (s : State) (es rest : List Event) (log : List Word) : State :=
  { s with
    status := { s.status with ovr := s.status.ovr || es.any Event.droppable }
    engine := engineAdvance^[es.countP Event.isEngine] s.engine
    pending := rest
    readLog := log }

/-- A host transaction while BUSY = 1 (20_memory.md R60, R61; 44_control.md R181). -/
theorem runRecord_busy (r : Record) {s : State} (hb : s.status.busy = true) :
    ∃ log, runRecord r s = .next { s with
      status := { s.status with ovr := s.status.ovr || (Event.bus r).droppable }, readLog := log } := by
  unfold runRecord decodeBus
  cases hd : recD r with
  | false => exact ⟨_, by simp [Event.droppable, hd, exec, execRd]; rfl⟩
  | true =>
    refine ⟨s.readLog, ?_⟩
    show execWr _ _ s = _
    rw [execWr_busy _ _ s hb]
    have hdrop : (Event.bus r).droppable =
        decide (accessOf (regAt (recIdx r)) = .wo ∨ accessOf (regAt (recIdx r)) = .rw) := by
      simp [Event.droppable, hd, beq_eq_decide]
    rw [hdrop]
    split <;> rename_i ha <;> simp [ha, dropWrite, statusOverrun]

theorem stillRunning_append (s : State) (es es' q rest : List Event) (log log' : List Word) :
    stillRunning (stillRunning s es q log) es' rest log' = stillRunning s (es ++ es') rest log' := by
  simp only [stillRunning, List.any_append, List.countP_append, Bool.or_assoc, ← Function.iterate_add_apply, Nat.add_comm]

theorem step_plain {s : State} {e : Event} {rest : List Event} (hp : s.pending = e :: rest) (he : e.plain = true)
    (hb : s.status.busy = true) (hn : s.engine.i + [e].countP Event.isEngine < 5 * s.engine.n) :
    ∃ log, step s = .next (stillRunning s [e] rest log) := by
  rw [step_cons s e rest hp]
  cases e with
  | bus r =>
    obtain ⟨log, hrun⟩ := runRecord_busy r (s := { s with pending := rest }) hb
    exact ⟨log, hrun.trans (by simp [stillRunning, Event.isEngine])⟩
  | engine =>
    refine ⟨s.readLog, congrArg Host.Outcome.next ?_⟩
    rw [engineStep_running (s := { s with pending := rest }) hb (Nat.ne_of_lt hn)]
    simp [stillRunning, Event.isEngine, Event.droppable]
  | reset | access | wait => simp [Event.plain] at he

/-- Whatever host transactions come between the engine's steps, the command's bits are taken one after the other. -/
theorem runSteps_plain (es : List Event) {s : State} {rest : List Event} (hp : s.pending = es ++ rest)
    (hes : es.all Event.plain = true) (hb : s.status.busy = true)
    (hn : s.engine.i + es.countP Event.isEngine < 5 * s.engine.n) :
    ∃ log, runSteps es.length s = .next (stillRunning s es rest log) := by
  induction es generalizing s with
  | nil =>
    refine ⟨s.readLog, ?_⟩
    rw [List.nil_append] at hp
    simp [stillRunning, ← hp]
  | cons e es ih =>
    rw [List.all_cons, Bool.and_eq_true] at hes
    rw [← List.singleton_append, List.countP_append] at hn
    obtain ⟨log, hstep⟩ := step_plain (rest := es ++ rest) hp hes.1 hb (by omega)
    obtain ⟨-, hne, hie, -⟩ := engineAdvance_iterate_keeps s.engine ([e].countP Event.isEngine)
    obtain ⟨log', hrun⟩ := ih (s := stillRunning s [e] (es ++ rest) log) rfl hes.2 hb (by
      rw [stillRunning, hie, hne]
      omega)
    refine ⟨log', ?_⟩
    rw [List.length_cons, runSteps_next hstep, hrun, stillRunning_append, List.singleton_append]

/-- The run of a command from a bit of it to its last. -/
theorem runSteps_to_last_bit (es : List Event) {s : State} {rest : List Event} (hp : s.pending = es ++ .engine :: rest)
    (hes : es.all Event.plain = true) (hb : s.status.busy = true)
    (hn : s.engine.i + es.countP Event.isEngine + 1 = 5 * s.engine.n) :
    ∃ log, runSteps (es.length + 1) s = .next (engineStep (stillRunning s es rest log)) := by
  obtain ⟨log, hrun⟩ := runSteps_plain es hp hes hb (by omega)
  exact ⟨log, (runSteps_add _ 1 _ _ hrun).trans (runSteps_next (step_cons _ .engine rest rfl))⟩

/-! ## The result under every interleaving (42_encode.md R146, R150) -/

theorem step_commandEvent {s : State} {c : Instr} {rest : List Event} (hp : s.pending = commandEvent c :: rest)
    (hc : c.wellFormed = true) : step s = exec c { s with pending := rest } := by
  rw [step_cons s _ rest hp]
  exact runRecord_toRecord (decodingAnEncodingGivesTheInstruction c hc) _

theorem getD_append_replicate (l : List Byte) (n k : Nat) : (l ++ List.replicate n 0#8).getD k 0#8 = l.getD k 0#8 := by
  rcases Nat.lt_or_ge k l.length with hk | hk
  · rw [List.getD_append _ _ _ _ hk]
  · rw [List.getD_append_right _ _ _ _ hk, List.getD_eq_default _ _ hk]
    simp [List.getD_eq_getElem?_getD, List.getElem?_replicate, apply_ite (Option.getD · 0#8)]

/-- What an engine on track commits when all its bits are done. -/
theorem commitEncodeRegs_onTrack {e : Engine} (h : encodeOnTrack e) (hi : e.i = 5 * e.n) (r : Regs) :
    commitEncodeRegs e r = { r with
      hash0 := packHash0 (encodeFn e.vlat e.vlon e.n)
      hash1 := packHash1 (encodeFn e.vlat e.vlon e.n)
      hlen := BitVec.ofNat 64 e.n } := by
  obtain ⟨-, -, -, hbuf⟩ := h
  rw [show e.i / 5 = e.n by omega] at hbuf
  obtain ⟨h0, h1⟩ := packHash_congr e.buf.toList (encodeFn e.vlat e.vlon e.n) fun k _ => by
    rw [hbuf, getD_append_replicate]
  rw [commitEncodeRegs, h0, h1]

/-- The last bit of an ENCODE on track commits the encode function. -/
theorem engineStep_commits_encodeFn {s : State} (hb : s.status.busy = true) (hop : s.engine.op = .enc)
    (hn : s.engine.i + 1 = 5 * s.engine.n) (hmax : s.engine.n ≤ 16) (h : encodeOnTrack s.engine) :
    engineStep s = { s with
      status := statusFinished .none s.status
      regs := { s.regs with
        hash0 := packHash0 (encodeFn s.engine.vlat s.engine.vlon s.engine.n)
        hash1 := packHash1 (encodeFn s.engine.vlat s.engine.vlon s.engine.n)
        hlen := BitVec.ofNat 64 s.engine.n }
      engine := encodeAdvance s.engine } := by
  have hregs := commitEncodeRegs_onTrack (encodeAdvance_onTrack h (by omega)) (by simpa using hn) s.regs
  rw [encodeAdvance_vlat, encodeAdvance_vlon, encodeAdvance_n] at hregs
  rw [engineStep_enc_last s hb hop hn, commitEncode, hregs]
  rfl

/-- The block right after the accept of an ENCODE of precision p, with the events q to come. -/
def encodeAccepted (s : State) (p : Nat) (q : List Event) : State :=
  { s with
    status := ⟨true, false, .none, false⟩
    engine := engineForEncode s.engine s.regs.lat s.regs.lon p
    pending := q }

theorem step_encode_accept {s : State} {p : Nat} (q : List Event) (hb : s.status.busy = false)
    (hrange : inRange s.regs.lat s.regs.lon = true) (hprec : s.regs.prec.toInt = (p : Int)) (h1 : 1 ≤ p)
    (hmax : p ≤ s.params.maxp) :
    step { s with pending := commandEvent .encode :: q } = .next (encodeAccepted s p q) := by
  have hlegal : precisionLegal (precision s.regs) s.params.maxp = true := by
    rw [precisionLegal_iff, precision, hprec]
    omega
  rw [step_commandEvent (s := { s with pending := commandEvent .encode :: q }) rfl rfl,
    execEncode_ok (s := { s with pending := q }) hb hrange hlegal]
  simp only [precision, hprec, Int.toNat_natCast]
  rfl

/-- The bits of an accepted ENCODE, short of the last one, leave its engine on track for the accepted operands. -/
theorem stillRunning_encodeAccepted {s : State} {p : Nat} (q es rest : List Event) (log : List Word)
    (hrange : inRange s.regs.lat s.regs.lon = true) (hk : es.countP Event.isEngine ≤ 80) :
    let e := (stillRunning (encodeAccepted s p q) es rest log).engine
    e.op = .enc ∧ e.n = p ∧ e.i = es.countP Event.isEngine ∧ e.vlat = s.regs.lat ∧ e.vlon = s.regs.lon ∧ encodeOnTrack e := by
  obtain ⟨hop, hn, hi, hlat, hlon, -⟩ :=
    engineAdvance_iterate_keeps (engineForEncode s.engine s.regs.lat s.regs.lon p) (es.countP Event.isEngine)
  exact ⟨hop, hn, hi.trans (Nat.zero_add _), hlat, hlon,
    engineAdvance_iterate_onTrack rfl (engineForEncode_onTrack s.engine p hrange) (by rwa [engineForEncode_i, Nat.zero_add])⟩

/-- Settles O45: the accept puts the engine on track, the events keep it there bit by bit, and the last bit commits what it staged. -/
theorem encodeResultIsTheFunctionUnderEveryInterleaving :
    Obligations.EncodeResultIsTheFunctionUnderEveryInterleaving := by
  intro s es rest p hinv hb hrange hprec h1 hmax hes hcount
  have hmaxp := legal_maxp_le hinv.1
  have haccept := step_encode_accept (es ++ .engine :: rest) hb hrange hprec h1 hmax
  obtain ⟨log, hrun⟩ := runSteps_to_last_bit es (s := encodeAccepted s p (es ++ .engine :: rest)) rfl hes rfl
    (by simpa [encodeAccepted] using hcount)
  obtain ⟨hop, hn, hi, hlat, hlon, htrack⟩ :=
    stillRunning_encodeAccepted (p := p) (es ++ .engine :: rest) es rest log hrange (by omega)
  rw [engineStep_commits_encodeFn rfl hop (by omega) (by omega) htrack, hn, hlat, hlon] at hrun
  exact ⟨_, (runSteps_next haccept).trans hrun, rfl, rfl, rfl, rfl, hashByte_packed _ _ rfl rfl⟩

end Sys2Proof.Machine
end

section
/-! PROOF. DECODE (43_decode.md): its accept, one bit of its engine, the commit, its result under every interleaving, the boxes it
commits as cells of the dyadic grid, and the way back from ENCODE. -/

namespace Sys2Proof.Machine

/-! ## The accept (43_decode.md R160 to R163) -/

theorem execDecode_ok {s : State} {n : Nat} {vals : List Quintet} (hb : s.status.busy = false)
    (hn : hashLength s.regs = n) (h0 : n ≠ 0) (hmax : n ≤ s.params.maxp)
    (hv : valuesOf (hashString s.regs n) = some vals) :
    exec .decode s = .next { s with
      status := ⟨true, false, .none, false⟩, engine := engineForDecode s.engine n vals } := by
  rw [execDecode_idle s hb, acceptDecode_ok (clearForAccept s) n vals hn h0 hmax hv]
  rfl

/-- A string in the alphabet has its values, one for each character. -/
theorem exists_values_of_alphabet {r : Regs} {n : Nat} (h : ∀ k, k < n → ∃ v, valOf (hashByte r k) = some v) :
    ∃ vals, valuesOf (hashString r n) = some vals ∧ vals.length = n ∧ ∀ k, k < n → valOf (hashByte r k) = vals[k]? := by
  obtain ⟨vals, hvals⟩ := valuesOf_isSome (hashString r n) fun c hc => by
    obtain ⟨k, hk, rfl⟩ := List.mem_map.1 hc
    exact h k (List.mem_range.1 hk)
  obtain ⟨hlen, hget⟩ := valuesOf_spec _ _ hvals
  refine ⟨vals, hvals, hlen.trans (hashString_length r n), fun k hk => ?_⟩
  rw [← hget k, hashString_getElem? r n k hk, Option.bind_some]

/-- Settles O49: a string in the alphabet has its values, and the accept loads them. -/
theorem decodeAcceptLoadsTheEngine : Obligations.DecodeAcceptLoadsTheEngine := by
  intro s hb h0 hmax halphabet
  obtain ⟨vals, hvals, hlen, hget⟩ := exists_values_of_alphabet halphabet
  exact ⟨vals, hlen, hget, execDecode_ok hb rfl h0 hmax hvals⟩

/-- Settles O50: the accept checks the length, then the characters. -/
theorem decodeRejectsBadOperandsInOrder : Obligations.DecodeRejectsBadOperandsInOrder := by
  intro s hb
  refine ⟨fun hempty => ?_, fun hlong => ?_, fun h0 hmax ⟨k, hk, hbad⟩ => ?_, fun h0 hmax halphabet => ?_⟩
  · rw [execDecode_idle s hb, acceptDecode, clearForAccept_regs, hashLength, if_pos hempty]
    rfl
  · rw [execDecode_idle s hb, acceptDecode, clearForAccept_regs, clearForAccept_params, hashLength,
      if_neg (Nat.ne_zero_of_lt hlong), if_pos hlong]
    rfl
  · have hvals : valuesOf (hashString s.regs s.regs.hlen.toNat) = none :=
      valuesOf_eq_none _ ⟨_, List.mem_map_of_mem (List.mem_range.2 hk), hbad⟩
    rw [execDecode_idle s hb, acceptDecode, clearForAccept_regs, clearForAccept_params, hashLength, if_neg h0,
      if_neg (not_lt.2 hmax), hvals]
    rfl
  · obtain ⟨vals, -, -, haccept⟩ := decodeAcceptLoadsTheEngine s hb h0 hmax halphabet
    exact ⟨_, haccept, rfl⟩

/-! ## One bit and the commit (43_decode.md R164, R166) -/

theorem engineStep_dec_engine {s : State} (hb : s.status.busy = true) (hop : s.engine.op = .dec) :
    (engineStep s).engine = decodeAdvance s.engine := by
  by_cases hn : s.engine.i + 1 = 5 * s.engine.n
  · rw [engineStep_dec_last s hb hop hn, commitDecode_engine]
  · rw [engineStep_dec s hb hop hn]

/-- The bit of index k is value bit 4 - (k mod 5) of character k div 5 (30_encoding.md R94, R95). -/
theorem bitOfValues_of_getElem? {vals : List Quintet} {k : Nat} {v : Quintet} (h : vals[k / 5]? = some v) :
    bitOfValues vals k = v.getLsbD (4 - k % 5) := by
  rw [bitOfValues, List.getD_eq_getElem?_getD, h, Option.getD_some]

/-- Settles O51, by the axis of the bit. -/
theorem decodeStepHalvesOneAxis : Obligations.DecodeStepHalvesOneAxis := by
  intro s hb hop v hv e b
  refine ⟨?_, fun hn => by rw [engineStep_dec s hb hop hn]⟩
  rw [engineStep_dec_engine hb hop, decodeAdvance, bitOfValues_of_getElem? hv, halveAxis]
  by_cases hk : e.i % 2 = 0 <;> simp [onLongitude, hk, e, b]

/-- Settles O52: the last step advances the engine and commits the box it leaves. -/
theorem decodeCommitWritesTheBox : Obligations.DecodeCommitWritesTheBox := by
  intro s hb hop hn
  rw [engineStep_dec_last s hb hop hn]
  rfl

/-! ## The result under every interleaving (43_decode.md R165, R171) -/

theorem engineAdvance_iterate_decodeOnTrack {e : Engine} (hop : e.op = .dec) (h : decodeOnTrack e) (k : Nat) :
    decodeOnTrack (engineAdvance^[k] e) := by
  induction k with
  | zero => exact h
  | succ k ih =>
    obtain ⟨hopk, -⟩ := engineAdvance_iterate_keeps e k
    rw [Function.iterate_succ_apply', engineAdvance, hopk, hop]
    exact decodeAdvance_onTrack ih

/-- The last bit of a DECODE on track commits the box of its values' bits. -/
theorem engineStep_commits_decodeBox {s : State} (hb : s.status.busy = true) (hop : s.engine.op = .dec)
    (hn : s.engine.i + 1 = 5 * s.engine.n) (h : decodeOnTrack s.engine) :
    engineStep s = { s with
      status := statusFinished .none s.status
      regs := commitDecodeRegs { s.engine with box := decodeBox (bitOfValues s.engine.vals) (5 * s.engine.n) } s.regs
      engine := decodeAdvance s.engine } := by
  have hbox : (decodeAdvance s.engine).box = decodeBox (bitOfValues s.engine.vals) (5 * s.engine.n) :=
    hn ▸ decodeAdvance_onTrack h
  rw [engineStep_dec_last s hb hop hn, ← hbox]
  rfl

/-- The block right after the accept of a DECODE of the values vals, with the events q to come. -/
def decodeAccepted (s : State) (vals : List Quintet) (q : List Event) : State :=
  { s with
    status := ⟨true, false, .none, false⟩
    engine := engineForDecode s.engine vals.length vals
    pending := q }

theorem step_decode_accept {s : State} {vals : List Quintet} (q : List Event) (hb : s.status.busy = false)
    (hlen : s.regs.hlen.toNat = vals.length) (h1 : 1 ≤ vals.length) (hmax : vals.length ≤ s.params.maxp)
    (hvals : ∀ k, k < vals.length → valOf (hashByte s.regs k) = vals[k]?) :
    step { s with pending := commandEvent .decode :: q } = .next (decodeAccepted s vals q) := by
  rw [step_commandEvent (s := { s with pending := commandEvent .decode :: q }) rfl rfl]
  exact execDecode_ok (s := { s with pending := q }) hb hlen (Nat.ne_zero_of_lt h1) hmax
    (valuesOf_hashString _ _ _ rfl hvals)

/-- The bits of an accepted DECODE, short of the last one, leave its engine on track for the accepted values. -/
theorem stillRunning_decodeAccepted (s : State) (vals : List Quintet) (q es rest : List Event) (log : List Word) :
    let e := (stillRunning (decodeAccepted s vals q) es rest log).engine
    e.op = .dec ∧ e.n = vals.length ∧ e.i = es.countP Event.isEngine ∧ e.vals = vals ∧ decodeOnTrack e := by
  obtain ⟨hop, hn, hi, -, -, hvals⟩ :=
    engineAdvance_iterate_keeps (engineForDecode s.engine vals.length vals) (es.countP Event.isEngine)
  exact ⟨hop, hn, hi.trans (Nat.zero_add _), hvals,
    engineAdvance_iterate_decodeOnTrack rfl (engineForDecode_onTrack s.engine vals.length vals) _⟩

/-- Settles O53: the accept puts the engine on track, the events keep it there bit by bit, and the last bit commits its box. -/
theorem decodeResultIsTheBoxUnderEveryInterleaving : Obligations.DecodeResultIsTheBoxUnderEveryInterleaving := by
  rintro s es rest n vals - hb hlen h1 hmax rfl hvals hes hcount
  have haccept := step_decode_accept (es ++ .engine :: rest) hb hlen h1 hmax hvals
  obtain ⟨log, hrun⟩ := runSteps_to_last_bit es (s := decodeAccepted s vals (es ++ .engine :: rest)) rfl hes rfl
    (by simpa [decodeAccepted] using hcount)
  obtain ⟨hop, hn, hi, hv, htrack⟩ := stillRunning_decodeAccepted s vals (es ++ .engine :: rest) es rest log
  rw [engineStep_commits_decodeBox rfl hop (by omega) htrack, hn, hv] at hrun
  exact ⟨_, (runSteps_next haccept).trans hrun, rfl, rfl, rfl, rfl⟩

/-! ## The boxes (43_decode.md R168 to R170, R173) -/

theorem IsCell.extent {q j L : Nat} {lo hi : Word} (h : IsCell q j L lo hi) : value hi - value lo = 90 * 2 ^ (q - j) := by
  rw [h.lo_eq, h.hi_eq]
  ring

/-- The lower bound, the extent and half the extent of a cell, in 2^j-ths. -/
theorem IsCell.closed_form {q j L : Nat} {lo hi : Word} (h : IsCell q j L lo hi) (hj : j ≤ 47) (hq : q ≤ 1076) (hjq : j ≤ q) :
    2 ^ j * value lo = 45 * (2 * L - 2 ^ j) * 2 ^ q ∧
    2 ^ j * (value hi - value lo) = 90 * 2 ^ q ∧
    2 ^ j * (value (mid lo hi) - value lo) = 45 * 2 ^ q := by
  rw [h.extent, h.mid_eq hj hq, h.lo_eq, ← pow_mul_pow_sub (2 : Int) hjq]
  exact ⟨by ring, by ring, by ring⟩

/-- Settles O54: both intervals are cells, of the ranges 45 * 2^1076 and 45 * 2^1075. -/
theorem boxHasItsClosedForm : Obligations.BoxHasItsClosedForm := by
  intro bit k hk
  obtain ⟨hlon, hlat⟩ := decodeBox_isCell bit k (by omega)
  have ha : lonBits k ≤ 47 := by unfold lonBits; omega
  have hc : latBits k ≤ 47 := by unfold latBits; omega
  obtain ⟨hlonlo, hlonext, hlonmid⟩ := hlon.closed_form ha le_rfl (by omega)
  obtain ⟨hlatlo, hlatext, hlatmid⟩ := hlat.closed_form hc (by omega) (by omega)
  obtain ⟨-, hlonfin, hlonzero⟩ := hlon.mid_exact ha le_rfl
  obtain ⟨-, hlatfin, hlatzero⟩ := hlat.mid_exact hc (by omega)
  rw [show 1076 = 1074 + 2 from rfl, pow_add] at hlonlo hlonext hlonmid
  rw [pow_succ] at hlatlo hlatext hlatmid
  dsimp only
  generalize (2 : Int) ^ 1074 = u at *
  refine ⟨by linear_combination hlonlo, by linear_combination hlonext, by linear_combination hlatlo,
    by linear_combination hlatext, by linear_combination hlonmid, by linear_combination hlatmid, ?_⟩
  simp only [List.forall_mem_cons, List.not_mem_nil, false_imp_iff, implies_true, and_true]
  exact ⟨⟨hlon.finite_lo, hlon.zero_lo⟩, ⟨hlon.finite_hi, hlon.zero_hi⟩, ⟨hlat.finite_lo, hlat.zero_lo⟩,
    ⟨hlat.finite_hi, hlat.zero_hi⟩, ⟨hlonfin, hlonzero⟩, ⟨hlatfin, hlatzero⟩⟩

theorem IsCell.mid_inside {q j L : Nat} {lo hi : Word} (h : IsCell q j L lo hi) (hj : j ≤ 47) (hq : q ≤ 1076) :
    value lo < value (mid lo hi) ∧ value (mid lo hi) < value hi := by
  have hmid := (h.mid_exact hj hq).1
  have hlt := h.lo_lt_hi
  omega

/-- d further bisections divide the extent by 2^d. -/
theorem IsCell.extent_add {q j d L L' : Nat} {lo hi lo' hi' : Word} (h : IsCell q j L lo hi) (h' : IsCell q (j + d) L' lo' hi')
    (hq : j + d ≤ q) : 2 ^ d * (value hi' - value lo') = value hi - value lo := by
  rw [h.extent, h'.extent, show q - j = d + (q - (j + d)) by omega, pow_add]
  ring

/-- The box y lies inside the box x, on both axes. -/
def BoxWithin (y x : Box) : Prop :=
  value x.lonlo ≤ value y.lonlo ∧ value y.lonhi ≤ value x.lonhi ∧
  value x.latlo ≤ value y.latlo ∧ value y.lathi ≤ value x.lathi

theorem BoxWithin.refl (x : Box) : BoxWithin x x := ⟨le_rfl, le_rfl, le_rfl, le_rfl⟩

theorem BoxWithin.trans {z y x : Box} (h : BoxWithin z y) (h' : BoxWithin y x) : BoxWithin z x := by
  obtain ⟨h1, h2, h3, h4⟩ := h
  obtain ⟨h1', h2', h3', h4'⟩ := h'
  exact ⟨h1'.trans h1, h2.trans h2', h3'.trans h3, h4.trans h4'⟩

/-- Halving an axis at a mid-point inside it leaves a box inside the box. -/
theorem halveAxis_within (k : Nat) (b : Bool) {x : Box}
    (hlon : value x.lonlo < value (mid x.lonlo x.lonhi) ∧ value (mid x.lonlo x.lonhi) < value x.lonhi)
    (hlat : value x.latlo < value (mid x.latlo x.lathi) ∧ value (mid x.latlo x.lathi) < value x.lathi) :
    BoxWithin (halveAxis k b x) x := by
  unfold halveAxis
  dsimp only
  split
  · cases b
    · exact ⟨le_rfl, hlon.2.le, le_rfl, le_rfl⟩
    · exact ⟨hlon.1.le, le_rfl, le_rfl, le_rfl⟩
  · cases b
    · exact ⟨le_rfl, le_rfl, le_rfl, hlat.2.le⟩
    · exact ⟨le_rfl, le_rfl, hlat.1.le, le_rfl⟩

/-- The centroid lies strictly inside the box (43_decode.md R170). -/
theorem decodeBox_centroid_inside (bit : Nat → Bool) {k : Nat} (hk : k ≤ 80) :
    let x := decodeBox bit k
    (value x.lonlo < value (mid x.lonlo x.lonhi) ∧ value (mid x.lonlo x.lonhi) < value x.lonhi) ∧
    (value x.latlo < value (mid x.latlo x.lathi) ∧ value (mid x.latlo x.lathi) < value x.lathi) := by
  obtain ⟨hlon, hlat⟩ := decodeBox_isCell bit k (by omega)
  exact ⟨hlon.mid_inside (by unfold lonBits; omega) le_rfl, hlat.mid_inside (by unfold latBits; omega) (by omega)⟩

/-- The box of more bits lies inside the box of fewer (43_decode.md R169). -/
theorem decodeBox_within (bit : Nat → Bool) {j k : Nat} (hjk : j ≤ k) (hk : k ≤ 80) :
    BoxWithin (decodeBox bit k) (decodeBox bit j) := by
  induction k, hjk using Nat.le_induction with
  | base => exact .refl _
  | succ k hjk ih =>
    obtain ⟨hlon, hlat⟩ := decodeBox_centroid_inside bit (k := k) (by omega)
    exact (halveAxis_within k (bit k) hlon hlat).trans (ih (by omega))

/-- One more character bisects one axis three times and the other twice (40_refine.md R117). -/
theorem axisBits_character (n : Nat) :
    lonBits (5 * (n + 1)) = lonBits (5 * n) + (if n % 2 = 0 then 3 else 2) ∧
    latBits (5 * (n + 1)) = latBits (5 * n) + (if n % 2 = 0 then 2 else 3) := by
  unfold lonBits latBits
  split <;> omega

/-- Settles O56: every bisection halves a cell at a mid-point inside it. -/
theorem boxesNestShrinkAndHoldTheirCentroid : Obligations.BoxesNestShrinkAndHoldTheirCentroid := by
  intro bit
  refine ⟨fun j k hjk hk => ?_, fun n hn => ?_⟩
  · obtain ⟨⟨hlon1, hlon2⟩, hlat1, hlat2⟩ := decodeBox_centroid_inside bit hk
    obtain ⟨h1, h2, h3, h4⟩ := decodeBox_within bit hjk hk
    exact ⟨h1, h2, h3, h4, hlat1, hlat2, hlon1, hlon2⟩
  · obtain ⟨hlon, hlat⟩ := decodeBox_isCell bit (5 * n) (by omega)
    obtain ⟨hlon', hlat'⟩ := decodeBox_isCell bit (5 * (n + 1)) (by omega)
    have hbits : lonBits (5 * (n + 1)) ≤ 1075 ∧ latBits (5 * (n + 1)) ≤ 1075 := by unfold lonBits latBits; omega
    obtain ⟨ha, hc⟩ := axisBits_character n
    rw [ha, hc] at hbits
    rw [ha] at hlon'
    rw [hc] at hlat'
    have hlonext := hlon.extent_add hlon' (by omega)
    have hlatext := hlat.extent_add hlat' (by omega)
    by_cases hpar : n % 2 = 0 <;> simpa [hpar] using And.intro hlonext hlatext

/-! ## The way back from ENCODE (43_decode.md R172) -/

theorem valuesOf_map_alph (vals : List Quintet) : valuesOf (vals.map alph) = some vals := by
  induction vals with
  | nil => rfl
  | cons v vals ih => rw [List.map_cons, valuesOf, valOf_alph, ih]

/-- The five bits of a group, first bit most significant. -/
theorem getLsbD_group : ∀ b0 b1 b2 b3 b4 : Bool,
    let g := BitVec.ofNat 5 (b0.toNat * 16 + b1.toNat * 8 + b2.toNat * 4 + b3.toNat * 2 + b4.toNat)
    g.getLsbD 4 = b0 ∧ g.getLsbD 3 = b1 ∧ g.getLsbD 2 = b2 ∧ g.getLsbD 1 = b3 ∧ g.getLsbD 0 = b4 := by decide

/-- Value bit 4 - i of group j is bit 5 j + i of the sequence (30_encoding.md R94, R95). -/
theorem groupOf_getLsbD (bit : Nat → Bool) (j : Nat) {i : Nat} (hi : i < 5) :
    (groupOf bit j).getLsbD (4 - i) = bit (5 * j + i) := by
  obtain ⟨h0, h1, h2, h3, h4⟩ :=
    getLsbD_group (bit (5 * j)) (bit (5 * j + 1)) (bit (5 * j + 2)) (bit (5 * j + 3)) (bit (5 * j + 4))
  unfold groupOf
  interval_cases i
  · exact h0
  · exact h1
  · exact h2
  · exact h3
  · exact h4

/-- The characters of the groups of a bit sequence hold its bits. -/
theorem bitOfValues_groups (bit : Nat → Bool) {n k : Nat} (hk : k < 5 * n) :
    bitOfValues ((List.range n).map (groupOf bit)) k = bit k := by
  have hget : ((List.range n).map (groupOf bit))[k / 5]? = some (groupOf bit (k / 5)) := by
    rw [List.getElem?_map, List.getElem?_range (by omega), Option.map_some]
  rw [bitOfValues_of_getElem? hget, groupOf_getLsbD bit _ (Nat.mod_lt k (by omega)), Nat.div_add_mod]

/-- Settles O57: the values of the encoder's characters are its groups, whose bits are its bits. -/
theorem decoderReachesTheEncodersIntervals : Obligations.DecoderReachesTheEncodersIntervals := by
  intro lat lon n
  have hbits : ∀ k, k < 5 * n → bitOfValues ((List.range n).map (groupOf (encodeBit lat lon))) k = encodeBit lat lon k :=
    fun _ => bitOfValues_groups _
  have hmap : encodeFn lat lon n = ((List.range n).map (groupOf (encodeBit lat lon))).map alph := by
    rw [List.map_map]
    rfl
  refine ⟨_, hmap ▸ valuesOf_map_alph _, by simp, hbits, ?_⟩
  rw [boxAfter_eq_decodeBox, decodeBox_congr _ _ _ hbits]

theorem valOf_getD_of_valuesOf {l : List Byte} {vals : List Quintet} (h : valuesOf l = some vals) {k : Nat}
    (hk : k < l.length) : valOf (l.getD k 0#8) = vals[k]? := by
  rw [← (valuesOf_spec l vals h).2 k, List.getD_eq_getElem _ _ hk, List.getElem?_eq_getElem hk, Option.bind_some]

/-- A block that holds the committed characters of ENCODE decodes to the encoder's last box. -/
theorem runSteps_decode_of_encodeFn {t : State} {lat lon : Word} {p : Nat} (es rest : List Event) (hinv : t.Inv)
    (hb : t.status.busy = false) (h1 : 1 ≤ p) (hmax : p ≤ t.params.maxp) (hlen : t.regs.hlen.toNat = p)
    (hhash : ∀ k, k < p → hashByte t.regs k = (encodeFn lat lon p).getD k 0#8) (hes : es.all Event.plain = true)
    (hcount : es.countP Event.isEngine + 1 = 5 * p) :
    ∃ u, runSteps (es.length + 2) { t with pending := commandEvent .decode :: (es ++ .engine :: rest) } = .next u ∧
      u.pending = rest ∧ u.status = ⟨false, true, .none, es.any Event.droppable⟩ ∧
      u.regs = commitDecodeRegs { t.engine with box := boxAfter lat lon (5 * p) } t.regs := by
  obtain ⟨vals, hvals, hvlen, -, hbox⟩ := decoderReachesTheEncodersIntervals lat lon p
  obtain ⟨u, hrun, hrest, -, hstatus, hregs⟩ := decodeResultIsTheBoxUnderEveryInterleaving t es rest p vals hinv hb hlen h1
    hmax hvlen (fun k hk => by rw [hhash k hk, valOf_getD_of_valuesOf hvals (by rwa [encodeFn_length])]) hes hcount
  rw [hbox] at hregs
  exact ⟨u, hrun, hrest, hstatus, hregs⟩

/-- Engine slots alone: as many bits, and no host write. -/
theorem replicate_engine_plain (m : Nat) : (List.replicate m Event.engine).all Event.plain = true ∧
    (List.replicate m Event.engine).countP Event.isEngine = m ∧
    (List.replicate m Event.engine).any Event.droppable = false := by
  simp [Event.plain, Event.isEngine, Event.droppable, List.countP_replicate]

/-- Settles O58: ENCODE commits the characters of the coordinate, DECODE of them the encoder's last box, which holds it. -/
theorem encodeThenDecodeContainsTheCoordinate : Obligations.EncodeThenDecodeContainsTheCoordinate := by
  intro s rest p hinv hb hrange hprec h1 hmax
  have hmaxp := legal_maxp_le hinv.1
  obtain ⟨m, hm⟩ : ∃ m, 5 * p = m + 1 := ⟨5 * p - 1, by omega⟩
  have hslots : ∀ q, List.replicate (5 * p) Event.engine ++ q = List.replicate m .engine ++ .engine :: q := fun q => by
    rw [hm, List.replicate_succ', List.append_assoc, List.singleton_append]
  obtain ⟨hplain, hcount, hdrop⟩ := replicate_engine_plain m
  obtain ⟨t, hrun, hpending, hparams, hstatus, hregs, hhash⟩ := encodeResultIsTheFunctionUnderEveryInterleaving s _
    (commandEvent .decode :: (List.replicate m .engine ++ .engine :: rest)) p hinv hb hrange hprec h1 hmax hplain
    (by rw [hcount, hm])
  have hidle : t.status.busy = false := by rw [hstatus]
  have hlen : t.regs.hlen.toNat = p := by
    rw [hregs, BitVec.toNat_ofNat, Nat.mod_eq_of_lt (by omega)]
  obtain ⟨u, hrun', hrest, hstatus', hregs'⟩ :=
    runSteps_decode_of_encodeFn _ rest (inv_of_idle (hparams ▸ hinv.1) hidle) hidle h1 (hparams ▸ hmax) hlen
      (fun k hk => hhash k (by omega)) hplain (by rw [hcount, hm])
  rw [← hpending] at hrun'
  have hruns := (runSteps_add _ _ _ _ hrun).trans hrun'
  rw [List.length_replicate, ← two_mul, ← hslots, ← hslots, show m + 2 = 5 * p + 1 by omega] at hruns
  rw [hdrop] at hstatus'
  refine ⟨u, hruns, hrest, hstatus', ?_⟩
  rw [hregs']
  exact encoderIntervalsContainTheCoordinate _ _ _ hrange (by omega)

end Sys2Proof.Machine
end

section
/-! PROOF. Control (44_control.md): the engine's step and its run to the commit, writes dropped while BUSY = 1, illegal command words,
and commands that fail. -/

namespace Sys2Proof.Machine

/-! ## The engine's step (44_control.md R187) -/

theorem engineStep_by_op (s : State) :
    (s.status.busy = true → s.engine.op = .enc → engineStep s = encodeStep s) ∧
    (s.status.busy = true → s.engine.op = .dec → engineStep s = decodeStep s) ∧
    (s.status.busy = false → engineStep s = s) :=
  ⟨fun hb hop => by simp only [engineStep, hb, hop, if_true], fun hb hop => by simp only [engineStep, hb, hop, if_true],
    engineStep_idle s⟩

/-- Settles O7: an engine slot and an empty list both take the engine's step, a slot on the state from which it has been taken. -/
theorem engineStepsExactlyWhileBusy : Obligations.EngineStepsExactlyWhileBusy := by
  refine ⟨fun s rest hp => ?_, fun s hp => ?_⟩
  · simpa only [step_cons s .engine rest hp, runEvent, Host.Outcome.next.injEq]
      using engineStep_by_op { s with pending := rest }
  · simpa only [step_nil s hp, Host.Outcome.next.injEq] using engineStep_by_op s

/-! ## The engine's run to the commit (44_control.md R188) -/

theorem engineSteps_succ (k : Nat) (s : State) : engineSteps (k + 1) s = engineStep (engineSteps k s) := by
  induction k generalizing s with
  | zero => rfl
  | succ k ih => exact ih (engineStep s)

/-- Short of a running command's last bit, engine steps move the engine alone. -/
theorem engineSteps_running {s : State} {k : Nat} (hb : s.status.busy = true) (hk : s.engine.i + k < 5 * s.engine.n) :
    engineSteps k s = { s with engine := engineAdvance^[k] s.engine } := by
  induction k with
  | zero => rfl
  | succ k ih =>
    obtain ⟨-, hn, hi, -⟩ := engineAdvance_iterate_keeps s.engine k
    have hmore : (engineAdvance^[k] s.engine).i + 1 ≠ 5 * (engineAdvance^[k] s.engine).n := by omega
    rw [engineSteps_succ, ih (by omega), Function.iterate_succ_apply']
    exact engineStep_running (s := { s with engine := engineAdvance^[k] s.engine }) hb hmore

/-- Every step of a running command takes one bit, the committing one too. -/
theorem engineStep_i {s : State} (hb : s.status.busy = true) : (engineStep s).engine.i = s.engine.i + 1 := by
  cases hop : s.engine.op with
  | enc => rw [engineStep_enc_engine hb hop, encodeAdvance_i]
  | dec => rw [engineStep_dec_engine hb hop, decodeAdvance_i]

/-- Settles O59: the invariant leaves at least one bit to go; the steps before the last move the engine alone, and the last
finishes the command. -/
theorem runningCommandCommitsAtItsLastStep : Obligations.RunningCommandCommitsAtItsLastStep := by
  rintro s ⟨-, -, hrun⟩ hb
  obtain ⟨-, -, -, hlt, -⟩ := hrun hb
  refine ⟨fun j hj => ?_, ?_⟩
  · rw [engineSteps_running hb (by omega)]
    obtain ⟨-, -, hi, -⟩ := engineAdvance_iterate_keeps s.engine j
    exact ⟨rfl, rfl, hi⟩
  · obtain ⟨k, hk⟩ := Nat.exists_eq_add_of_lt hlt
    obtain ⟨-, hn, hi, -⟩ := engineAdvance_iterate_keeps s.engine k
    have hlast : (engineAdvance^[k] s.engine).i + 1 = 5 * (engineAdvance^[k] s.engine).n := by omega
    rw [show 5 * s.engine.n - s.engine.i = k + 1 by omega, engineSteps_succ, engineSteps_running hb (by omega), ← hn,
      ← hlast]
    exact ⟨engineStep_finishes (s := { s with engine := engineAdvance^[k] s.engine }) hb hlast,
      engineStep_i (s := { s with engine := engineAdvance^[k] s.engine }) hb⟩

/-! ## Dropped writes (44_control.md R181) -/

theorem accessOf_regAt_wo_or_rw : ∀ idx : Index,
    (idx = 1#5 ∨ (4#5 ≤ idx ∧ idx ≤ 9#5) ∨ (16#5 ≤ idx ∧ idx ≤ 18#5)) →
    accessOf (regAt idx) = .wo ∨ accessOf (regAt idx) = .rw := by decide

/-- Settles O24: the listed indices are those of CMD and the RW class, whose writes are dropped, as every command's is. -/
theorem busyWritesAreDropped : Obligations.BusyWritesAreDropped := by
  refine fun s hb => ⟨fun idx v hidx => ?_, fun c hc => exec_command_busy c hc s hb⟩
  show execWr idx v s = _
  rw [execWr_busy idx v s hb, if_pos (accessOf_regAt_wo_or_rw idx hidx)]
  rfl

/-! ## NOP (44_control.md R184) -/

/-- Settles O28: NOP finishes a block whose DONE, ERR and OVR accept has cleared. -/
theorem nopOnlyFinishes : Obligations.NopOnlyFinishes :=
  ⟨rfl, execNop_idle, by decide, exec_command_busy .nop rfl⟩

/-! ## Illegal words (44_control.md R185) -/

theorem exec_wr_cmd_illegal {s : State} {w : Word} (hb : s.status.busy = false) (hw : validWord w = false) :
    exec (.wr 1#5 w) s = .next { s with status := ⟨false, true, .invalidCommand, false⟩ } := by
  show writeCommand w s = _
  rw [writeCommand, hw, if_neg Bool.false_ne_true]
  exact execInvalid_idle s hb

/-- A reserved OP or a reserved bit makes a word illegal. -/
theorem validWord_eq_false {w : Word} (h : 6#4 ≤ cmdOp w ∨ cmdRsv0 w ≠ 0#4 ∨ cmdRsv1 w ≠ 0#48) : validWord w = false := by
  have hreserved : ∀ op : BitVec 4, 6#4 ≤ op → op ∉ [0x0#4, 0x1#4, 0x2#4, 0x3#4] ∧ op ≠ 4#4 ∧ op ≠ 5#4 := by decide
  rw [← Bool.not_eq_true, validWord_iff]
  rintro ⟨h1, h0, hop⟩
  rcases h with h | h | h
  · obtain ⟨hlow, h4, h5⟩ := hreserved _ h
    rcases hop with ⟨hop, -⟩ | ⟨hop, -⟩ | hop
    · exact hlow hop
    · exact h4 hop
    · exact h5 hop
  · exact h h0
  · exact h h1

/-- Settles O27: an illegal word ends in InvalidCommand; 0xFF05 is DECCHAR of a code that is not in the alphabet. -/
theorem illegalWordFinishesWithInvalidCommand : Obligations.IllegalWordFinishesWithInvalidCommand :=
  ⟨fun _ _ => exec_wr_cmd_illegal, by decide, fun _ => validWord_eq_false, by decide, by decide, by decide, by decide,
    fun s hb => (commandWriteRunsTheCommand s _ (.decchar 0xFF#8) (by decide)).trans (execDecchar_none hb (by decide))⟩

/-! ## Commands that fail (44_control.md R183, 60_exceptions.md R192) -/

/-- A command writes a register only as it finishes without an error; ENCODE and DECODE write none at their accept. -/
theorem exec_command_failed_regs {c : Instr} (hc : c.isCommand = true) {s t : State} (hb : s.status.busy = false)
    (hx : exec c s = .next t) (herr : t.status.err ≠ .none) : t.regs = s.regs := by
  cases c with
  | nop => rw [execNop_idle s hb] at hx; cases hx; rfl
  | encode =>
    obtain ⟨-, -, -, hregs⟩ := acceptEncode_keeps (clearForAccept s)
    rw [execEncode_idle s hb] at hx; cases hx; exact hregs
  | decode =>
    obtain ⟨-, -, -, hregs⟩ := acceptDecode_keeps (clearForAccept s)
    rw [execDecode_idle s hb] at hx; cases hx; exact hregs
  | refine => rw [execRefine_idle s hb] at hx; cases hx; exact absurd rfl herr
  | encchar arg =>
    by_cases harg : arg.extractLsb' 5 3 = 0#3
    · rw [execEncchar_ok hb harg] at hx; cases hx; exact absurd rfl herr
    · rw [execEncchar_illFormed hb harg] at hx; cases hx; rfl
  | decchar ch =>
    cases hv : valOf ch with
    | none => rw [execDecchar_none hb hv] at hx; cases hx; rfl
    | some v => rw [execDecchar_some hb hv] at hx; cases hx; exact absurd rfl herr
  | rd | wr => simp [Instr.isCommand] at hc

/-- A command that leaves an error is a finished one, since one under way has none. -/
theorem exec_command_failed {c : Instr} (hc : c.isCommand = true) {s t : State} (hb : s.status.busy = false)
    (hx : exec c s = .next t) (herr : t.status.err ≠ .none) :
    t = { s with status := ⟨false, true, t.status.err, false⟩ } := by
  have hregs := exec_command_failed_regs hc hb hx herr
  rcases exec_command_idle c hc s t hb hx with ⟨code, regs, rfl⟩ | ⟨-, -, -, rfl⟩ | ⟨-, _, _, -, -, -, -, rfl⟩
  · cases hregs; rfl
  · exact absurd rfl herr
  · exact absurd rfl herr

/-- Settles O33: a CMD write is the command its word decodes to, or an illegal word's. -/
theorem failedCommandChangesOnlyStatus : Obligations.FailedCommandChangesOnlyStatus := by
  rintro s t i hb (hi | ⟨w, rfl⟩) hx herr
  · exact exec_command_failed hi hb hx herr
  · cases hw : validWord w with
    | true =>
      obtain ⟨c, hc⟩ := (decodeCmd_ok_iff w).2 hw
      rw [commandWriteRunsTheCommand s w c hc] at hx
      exact exec_command_failed (decodeCmd_isCommand hc) hb hx herr
    | false =>
      rw [exec_wr_cmd_illegal hb hw] at hx
      cases hx
      rfl

end Sys2Proof.Machine
end

section
/-! PROOF. Errors (60_exceptions.md): no instruction stops the machine, and the error codes each command can leave. -/

namespace Sys2Proof.Machine

/-! ## No instruction stops the machine (60_exceptions.md R198, R200) -/

/-- Settles O17: a command and a write keep the read log too, and a read is the instruction that adds to it. -/
theorem everyInstructionAnswersANextState : Obligations.EveryInstructionAnswersANextState := by
  intro i s
  cases hi : i.isCommand with
  | true =>
    obtain ⟨t, hx, hparams, hpending, hlog⟩ := exec_command_next i hi s
    exact ⟨t, hx, hparams, hpending, fun _ => hlog⟩
  | false =>
    cases i with
    | rd idx => exact ⟨_, rfl, rfl, rfl, fun hnotRead => absurd rfl (hnotRead idx)⟩
    | wr idx w =>
      obtain ⟨t, hx, hparams, hpending, hlog⟩ := execWr_next idx w s
      exact ⟨t, hx, hparams, hpending, fun _ => hlog⟩
    | nop | encode | decode | refine | encchar | decchar => simp [Instr.isCommand] at hi

/-! ## The error codes of each command (60_exceptions.md R191) -/

/-- ENCODE's accept ends in one of its two checks' errors, or starts the engine and leaves ERR as it was. -/
theorem acceptEncode_err (a : State) :
    (acceptEncode a).status.err ∈ [a.status.err, .outOfRange, .invalidPrecision] := by
  unfold acceptEncode
  split
  · simp
  · split <;> simp

/-- DECODE's accept ends in one of its three checks' errors, or starts the engine and leaves ERR as it was. -/
theorem acceptDecode_err (a : State) :
    (acceptDecode a).status.err ∈ [a.status.err, .invalidPrecision, .invalidCharacter, .emptyInput] := by
  unfold acceptDecode
  split
  · simp
  · split
    · simp
    · split <;> simp

/-- A bus transaction on an idle block, a CMD write apart, leaves STATUS as it was. -/
theorem exec_transaction_status_of_ne_cmd {i : Instr} {s t : State} (hb : s.status.busy = false)
    (hi : i.isCommand = false) (hne : ∀ w, i ≠ .wr 1#5 w) (hx : exec i s = .next t) : t.status = s.status := by
  rcases exec_transaction_status hi hx with h | ⟨hbusy, -⟩ | ⟨-, w, hw, -⟩
  · exact h
  · exact absurd hb (ne_false_of_eq_true hbusy)
  · exact absurd hw (hne w)

/-- Settles O34: each command by the errors its accept can raise, after ERR is cleared; a CMD write by its word, and every other
transaction leaves STATUS alone. -/
theorem commandsFinishWithTheirOwnErrors : Obligations.CommandsFinishWithTheirOwnErrors := by
  intro s t i hb hwf hx
  cases i with
  | nop => rw [execNop_idle s hb] at hx; cases hx; rfl
  | encode => rw [execEncode_idle s hb] at hx; cases hx; exact acceptEncode_err (clearForAccept s)
  | decode => rw [execDecode_idle s hb] at hx; cases hx; exact acceptDecode_err (clearForAccept s)
  | refine => rw [execRefine_idle s hb] at hx; cases hx; rfl
  | encchar arg => rw [execEncchar_ok hb (beq_iff_eq.1 hwf)] at hx; cases hx; rfl
  | decchar c =>
    cases hv : valOf c with
    | none => rw [execDecchar_none hb hv] at hx; cases hx; simp
    | some v => rw [execDecchar_some hb hv] at hx; cases hx; simp
  | rd idx => exact congrArg Status.err (exec_transaction_status_of_ne_cmd hb rfl (by simp) hx)
  | wr idx w =>
    refine ⟨fun hcmd hw => ?_, fun hne => ?_⟩
    · rw [hcmd, exec_wr_cmd_illegal hb hw] at hx
      cases hx
      rfl
    · exact congrArg Status.err (exec_transaction_status_of_ne_cmd hb rfl (by simp [hne]) hx)

end Sys2Proof.Machine
end

section
/-! PROOF. The reset event (70_reset_and_hazards.md R210). -/

namespace Sys2Proof.Machine

/-- The whole next state of a reset event, whatever runs and whatever transactions arrive meanwhile. -/
theorem step_reset {s : State} {arriving : List Record} {rest : List Event} (hp : s.pending = .reset arriving :: rest) :
    step s = .next (applyReset { s with pending := rest }) :=
  step_cons s (.reset arriving) rest hp

/-- Settles O12: the reset event steps to `applyReset` on the events after it, which sets STATUS and the registers to their reset
values and leaves the parameters, the events to come and the read log. -/
theorem resetEventClearsEveryRegister : Obligations.ResetEventClearsEveryRegister := by
  intro s arriving rest hp
  refine ⟨applyReset { s with pending := rest }, step_reset hp, ?_, ?_, ?_, ?_, ?_⟩
  · exact applyReset_status _
  · exact applyReset_regs _
  · exact applyReset_params _
  · exact applyReset_pending _
  · exact applyReset_readLog _

end Sys2Proof.Machine
end
